-- ==== Sys2Proof/Word.lean ====
section
/-! DEFINITION. The word types of the CRC engine (spec/00_scope.md R9: every value is an unsigned bit vector). -/

namespace Sys2Proof

/-- A descriptor word, an operand, an address, and any W-bit value (bits 63..W zero): `CMD_WORD_BITS` = 64 (R8). -/
abbrev Word := BitVec 64

/-- One byte of `MEM`, and an index of a table row. -/
abbrev Byte := BitVec 8

/-- A word as the word kernels read it: `WORD_BITS` = 32 (R8). -/
abbrev HalfWord := BitVec 32

end Sys2Proof
end

