-- ==== Sys2Proof/Config.lean ====
section
/-! DEFINITION. The names the spec enumerates (kernels, presets) and the values it leaves open (the free values). -/

namespace Sys2Proof

/-- The five processing kernels, in the order of their numbers 0..4 (spec/30_encoding.md R65). -/
inductive Kernel where
  | byte | w1 | w2 | w4 | w8
  deriving DecidableEq, Repr, Inhabited

/-- The five presets, in the order of `PRESET_ROM` (spec/40_profile_and_table.md R100). -/
inductive Preset where
  | crc16 | crc16Ccitt | crc32 | crc64 | crc64Iso
  deriving DecidableEq, Repr, Inhabited

/-- FREE VALUE. `PRESET_DKERNEL`: the default kernel of each preset, which the source nowhere gives
(spec/00_scope.md R8, 40_profile_and_table.md R100; log 6). -/
opaque Config.presetDkernel : Preset → Kernel

/-- FREE VALUE. The kernel TUNE selects, "a draw from all five kernels, under no law" (spec/43_tuner.md R152). The first
argument counts the draws, so that each TUNE has a value of its own; the others are the effective buffer size and repeat
count (log 5). -/
opaque Config.tuneDraw : Nat → Word → Word → Kernel

end Sys2Proof
end

