-- ==== Sys2Proof/Syntax.lean ====
section
/-! DEFINITION. The fifteen commands of the opcode table (spec/30_encoding.md R66), one constructor a row. -/

namespace Sys2Proof

/-- A command with its operands: the header fields of R61 it uses, then its operand words in order (R62, R63). -/
inductive Instr where
  /-- MAKE (R90): `WD`, `K`, `RI`, `RO`, then `poly`, `init`, `xorout`. `WD` and `K` are the fields as written: not
  every value of either is legal. -/
  | make (wd : BitVec 8) (k : BitVec 3) (ri ro : Bool) (poly ini xorout : Word)
  /-- RESET (R110). -/
  | reset
  /-- CONSUME (R111). -/
  | consume (addr len : Word)
  /-- CONSUMEK.BYTE (R112, R131). -/
  | consumekByte (addr len : Word)
  /-- CONSUMEK.1W (R112, R134). -/
  | consumek1w (addr len : Word)
  /-- CONSUMEK.2W (R112, R135). -/
  | consumek2w (addr len : Word)
  /-- CONSUMEK.4W (R112, R136). -/
  | consumek4w (addr len : Word)
  /-- CONSUMEK.8W (R112, R137). -/
  | consumek8w (addr len : Word)
  /-- DIGEST (R113). -/
  | digest
  /-- TUNE (R150): `DS`, `DR`, then `size`, `reps`, present even when the bit makes the block ignore them (R63). -/
  | tune (ds dr : Bool) (size reps : Word)
  /-- CRC16 (R95). -/
  | crc16
  /-- CRC16_CCITT (R96). -/
  | crc16Ccitt
  /-- CRC32 (R97). -/
  | crc32
  /-- CRC64 (R98). -/
  | crc64
  /-- CRC64_ISO (R99). -/
  | crc64Iso
  deriving DecidableEq, Repr

end Sys2Proof
end

