-- ==== Sys2Proof/WellFormed.lean ====
section
/-! DEFINITION. Which commands have a legal header (spec/30_encoding.md R67). -/

namespace Sys2Proof

/-- The one check the types of `Instr` leave: the kernel number of MAKE is 0..4 (R67 test 4). A width other than 16, 32, 64
is well-formed, and so is every operand word (R64, R68). -/
def Instr.wellFormed : Instr → Bool
  | .make _ k _ _ _ _ _ => decide (k ≤ 4)
  | .reset => true
  | .consume _ _ => true
  | .consumekByte _ _ => true
  | .consumek1w _ _ => true
  | .consumek2w _ _ => true
  | .consumek4w _ _ => true
  | .consumek8w _ _ => true
  | .digest => true
  | .tune _ _ _ _ => true
  | .crc16 => true
  | .crc16Ccitt => true
  | .crc32 => true
  | .crc64 => true
  | .crc64Iso => true

/-- The header of the command is legal. -/
abbrev WellFormed (i : Instr) : Prop := i.wellFormed = true

end Sys2Proof
end

