-- ==== Sys2Proof/Decode.lean ====
section
/-! DEFINITION. The decoder of the command stream (spec/30_encoding.md R60 to R69), the encoder, the opcode table's rows
(R66), the assembler's pseudo-commands (R71), and the reading of a word as spec/opcode_table.json numbers its bits. -/

namespace Sys2Proof

/-! ### Header fields (R61) -/

/-- `OP`, bits 7:0. -/
def opOf (h : Word) : BitVec 8 := h.extractLsb' 0 8

/-- `K`, bits 10:8. -/
def kOf (h : Word) : BitVec 3 := h.extractLsb' 8 3

/-- `RI`, bit 11. -/
def riOf (h : Word) : Bool := h.getLsbD 11

/-- `RO`, bit 12. -/
def roOf (h : Word) : Bool := h.getLsbD 12

/-- `WD`, bits 23:16. -/
def wdOf (h : Word) : BitVec 8 := h.extractLsb' 16 8

/-- `DS`, bit 24. -/
def dsOf (h : Word) : Bool := h.getLsbD 24

/-- `DR`, bit 25. -/
def drOf (h : Word) : Bool := h.getLsbD 25

/-! ### Kernel numbers (R65) -/

/-- The kernel a number 0..4 names; 5, 6 and 7 name none. -/
def kernelOfNumber (k : BitVec 3) : Option Kernel :=
  match k.toNat with
  | 0 => some .byte
  | 1 => some .w1
  | 2 => some .w2
  | 3 => some .w4
  | 4 => some .w8
  | _ => none

/-- The number of a kernel. -/
def kernelNumber : Kernel → BitVec 3
  | .byte => 0
  | .w1 => 1
  | .w2 => 2
  | .w4 => 3
  | .w8 => 4

/-! ### Lengths and legality -/

/-- The length of a descriptor in words, from `OP` alone, for an illegal header too (R62, R69). -/
def descriptorLength (op : BitVec 8) : Nat :=
  if op = 0x01 then 4
  else if op = 0x03 ∨ op = 0x04 ∨ op = 0x06 then 3
  else 1

/-- `OP` is one of 0x01..0x06, 0x10..0x14 (R67 test 1). -/
def isOpcode (op : BitVec 8) : Bool :=
  (decide (0x01 ≤ op) && decide (op ≤ 0x06)) || (decide (0x10 ≤ op) && decide (op ≤ 0x14))

/-- The reserved header bits, 15:13 and 63:26 (R61). -/
def reservedBits : Word := 0xFFFFFFFFFC00E000

/-- The header bits, beside `OP`, that a command uses (R61, R69). -/
def usedBits (op : BitVec 8) : Word :=
  if op = 0x01 then 0xFF1F00
  else if op = 0x04 then 0x000700
  else if op = 0x06 then 0x3000000
  else 0

/-- Why a header is illegal: the four tests of R67, in their order. -/
inductive Illegal where
  | opcode | reservedBit | unusedField | kernelNumber
  deriving DecidableEq, Repr

/-- The first of R67's tests that the header fails, if any. -/
def illegalReason (h : Word) : Option Illegal :=
  let op := opOf h
  if ¬ isOpcode op then some .opcode
  else if h &&& reservedBits ≠ 0 then some .reservedBit
  else if h &&& ~~~(0xFF ||| usedBits op) ≠ 0 then some .unusedField
  else if (op = 0x01 ∨ op = 0x04) ∧ 4 < kOf h then some .kernelNumber
  else none

/-! ### The decoder (R69) -/

/-- The command of a header, with the operand words that follow it (words a short descriptor has not are ignored). It answers
none only for headers that `illegalReason` names. -/
def commandOf (h w1 w2 w3 : Word) : Option Instr :=
  match (opOf h).toNat with
  | 0x01 => some (.make (wdOf h) (kOf h) (riOf h) (roOf h) w1 w2 w3)
  | 0x02 => some .reset
  | 0x03 => some (.consume w1 w2)
  | 0x04 =>
    match (kOf h).toNat with
    | 0 => some (.consumekByte w1 w2)
    | 1 => some (.consumek1w w1 w2)
    | 2 => some (.consumek2w w1 w2)
    | 3 => some (.consumek4w w1 w2)
    | 4 => some (.consumek8w w1 w2)
    | _ => none
  | 0x05 => some .digest
  | 0x06 => some (.tune (dsOf h) (drOf h) w1 w2)
  | 0x10 => some .crc16
  | 0x11 => some .crc16Ccitt
  | 0x12 => some .crc32
  | 0x13 => some .crc64
  | 0x14 => some .crc64Iso
  | _ => none

/-- What the front of the word stream is. -/
inductive Decoded where
  /-- The stream ends before the descriptor does: nothing is executed, no word is taken. -/
  | waiting
  /-- An illegal header: its descriptor's words are taken, the rest of the stream follows. -/
  | illegal (why : Illegal) (rest : List Word)
  /-- A command, and the rest of the stream. -/
  | command (i : Instr) (rest : List Word)
  deriving DecidableEq, Repr

/-- Decoding one command from the word stream (R69). -/
def decode : List Word → Decoded
  | [] => .waiting
  | h :: ops =>
    let n := descriptorLength (opOf h) - 1
    if ops.length < n then .waiting
    else
      match illegalReason h with
      | some why => .illegal why (ops.drop n)
      | none =>
        match commandOf h (ops.getD 0 0) (ops.getD 1 0) (ops.getD 2 0) with
        | some i => .command i (ops.drop n)
        | none => .illegal .opcode (ops.drop n)

/-! ### The encoder -/

/-- A one-bit header field at bit `n`. -/
def flagBit (b : Bool) (n : Nat) : Word := if b then 1 <<< n else 0

/-- The header word of MAKE (R61, R70). -/
def makeHeader (wd : BitVec 8) (k : BitVec 3) (ri ro : Bool) : Word :=
  0x01 ||| (k.setWidth 64 <<< 8) ||| flagBit ri 11 ||| flagBit ro 12 ||| (wd.setWidth 64 <<< 16)

/-- The header word of TUNE (R61, R150). -/
def tuneHeader (ds dr : Bool) : Word := 0x06 ||| flagBit ds 24 ||| flagBit dr 25

/-- The descriptor of a command: its header, then its operand words (R61, R62, R66, R70). -/
def encode : Instr → List Word
  | .make wd k ri ro poly ini xorout => [makeHeader wd k ri ro, poly, ini, xorout]
  | .reset => [0x02]
  | .consume addr len => [0x03, addr, len]
  | .consumekByte addr len => [0x0004, addr, len]
  | .consumek1w addr len => [0x0104, addr, len]
  | .consumek2w addr len => [0x0204, addr, len]
  | .consumek4w addr len => [0x0304, addr, len]
  | .consumek8w addr len => [0x0404, addr, len]
  | .digest => [0x05]
  | .tune ds dr size reps => [tuneHeader ds dr, size, reps]
  | .crc16 => [0x10]
  | .crc16Ccitt => [0x11]
  | .crc32 => [0x12]
  | .crc64 => [0x13]
  | .crc64Iso => [0x14]

/-! ### The opcode table's rows (R66) -/

/-- (`match`, `mask`) of the fifteen rows, in the table's order. -/
def opcodeRows : List (Word × Word) :=
  [(0x0001, 0xFFFFFFFFFF00E0FF), (0x0002, 0xFFFFFFFFFFFFFFFF), (0x0003, 0xFFFFFFFFFFFFFFFF),
   (0x0004, 0xFFFFFFFFFFFFFFFF), (0x0104, 0xFFFFFFFFFFFFFFFF), (0x0204, 0xFFFFFFFFFFFFFFFF),
   (0x0304, 0xFFFFFFFFFFFFFFFF), (0x0404, 0xFFFFFFFFFFFFFFFF), (0x0005, 0xFFFFFFFFFFFFFFFF),
   (0x0006, 0xFFFFFFFFFCFFFFFF), (0x0010, 0xFFFFFFFFFFFFFFFF), (0x0011, 0xFFFFFFFFFFFFFFFF),
   (0x0012, 0xFFFFFFFFFFFFFFFF), (0x0013, 0xFFFFFFFFFFFFFFFF), (0x0014, 0xFFFFFFFFFFFFFFFF)]

/-- A header selects a row when `h AND mask = match` (R66). -/
def selectsRow (h : Word) (row : Word × Word) : Bool := h &&& row.2 == row.1

/-! ### Pseudo-commands of the assembler (R71) -/

/-- `TUNE` with both operands omitted. -/
def pseudoTune : Instr := .tune true true 0 0

/-- `TUNE size`. -/
def pseudoTuneSize (size : Word) : Instr := .tune false true size 0

/-- `TUNE *, reps`. -/
def pseudoTuneReps (reps : Word) : Instr := .tune true false 0 reps

/-- The byte count of `count` elements of `esize` bytes; none where "the assembler refuses". -/
def elementBytes (count esize : Nat) : Option Word :=
  if count * esize < 2 ^ 64 then some (BitVec.ofNat 64 (count * esize)) else none

/-- `CONSUMEW addr, count, esize`. -/
def pseudoConsumeW (addr : Word) (count esize : Nat) : Option Instr :=
  (elementBytes count esize).map (.consume addr)

/-- `CONSUMEK.k addr, len`, by kernel. -/
def consumekOf (k : Kernel) (addr len : Word) : Instr :=
  match k with
  | .byte => .consumekByte addr len
  | .w1 => .consumek1w addr len
  | .w2 => .consumek2w addr len
  | .w4 => .consumek4w addr len
  | .w8 => .consumek8w addr len

/-- `CONSUMEKW.k addr, count, esize`. -/
def pseudoConsumeKW (k : Kernel) (addr : Word) (count esize : Nat) : Option Instr :=
  (elementBytes count esize).map (consumekOf k addr)

/-! ### Words as spec/opcode_table.json numbers their bits -/

/-- The descriptor whose bits are `w` (bit 0 the least significant of the header, word n's bits 64n up), the bits from
`nbits` up zero: as many words as the header's `OP` says. -/
def descriptorOfBits (nbits w : Nat) : List Word :=
  let v := w % 2 ^ nbits
  let word (n : Nat) : Word := BitVec.ofNat 64 (v >>> (64 * n))
  ([word 0, word 1, word 2, word 3]).take (descriptorLength (opOf (word 0)))

/-- The command the decoder reads from a word of the opcode table; none where it refuses. -/
def decodeTableWord (nbits w : Nat) : Option Instr :=
  match decode (descriptorOfBits nbits w) with
  | .command i _ => some i
  | .illegal _ _ => none
  | .waiting => none

end Sys2Proof
end

