-- ==== Sys2Proof/Machine/State.lean ====
section
/-! DEFINITION. The state of the block (spec/10_state.md R20), why a step can stop, and the state after hardware reset. -/

namespace Sys2Proof.Machine

/-- `PROFILE`, the control-register set: seven fields (R22). The W-bit fields stand in 64 bits, bits 63..W zero. -/
structure Profile where
  width   : Nat
  poly    : Word
  init    : Word
  xorout  : Word
  refin   : Bool
  refout  : Bool
  dkernel : Kernel
  deriving DecidableEq, Repr

/-- One row of the lookup table: `TABLE_COLS` = 256 entries (R23). -/
abbrev Row := Vector Word 256

/-- `T`: `TABLE_ROWS` = 32 rows (R23). -/
abbrev Table := Vector Row 32

/-- `RESP`: the response every command writes last (R25, R72). -/
structure Resp where
  status : BitVec 8
  value  : Word
  deriving DecidableEq, Repr

/-- The six faults a command can end with (spec/60_exceptions.md R160). They are responses: the block goes on. -/
inductive CmdFault where
  | unsupportedWidth | invalidProfile | notConfigured | illegalCommand | spanRange | tuneRange
  deriving DecidableEq, Repr

/-- `MEM`, the input memory: the bytes that differ from what an unlisted address reads as, by strictly rising address
(spec/20_memory.md R40, R47; log 2). -/
abbrev Memory := List Host.Cell

/-- A set of spans the platform does not admit. Every `MemAdmit` is the complement of a list of these (log 3). -/
inductive SpanSet where
  /-- The spans that have a byte at an address in `base .. base + size - 1`. -/
  | touching (base size : Nat)
  /-- The spans whose address is in `addrLo .. addrHi` and whose length is in `lenLo .. lenHi`. -/
  | within (addrLo addrHi lenLo lenHi : Nat)
  deriving DecidableEq, Repr

/-- The state of the block, its command port, and the data a step takes as parameters. -/
structure State where
  /-- `REG`, W bits in 64 (R21). -/
  reg        : Word
  /-- `PROFILE` (R22). -/
  profile    : Profile
  /-- `T` (R23). -/
  table      : Table
  /-- `ACTIVE` (R24). -/
  active     : Kernel
  /-- `CONFIGURED` (R25). -/
  configured : Bool
  /-- `RESP` (R25). -/
  resp       : Resp
  /-- The descriptor words delivered to the command port and not yet taken, oldest first (R60, R69). -/
  port       : List Word
  /-- `MEM`, which no command writes (R40, R46). -/
  mem        : Memory
  /-- `MemAdmit` (R8, R47): the spans the platform does not let the block read (log 3). -/
  unadmitted : List SpanSet
  /-- `TUNE_BUF_MAX` (R8, R167; log 4). -/
  tuneBufMax : Word
  /-- The model's own: how many kernels TUNE has drawn (log 5). -/
  draws      : Nat
  deriving DecidableEq, Repr

/-- Why the machine stops. -/
inductive Fault where
  /-- Raised by CONSUME and CONSUMEK.* for a span `MemAdmit` does not admit: the spec's "the command has no step at all (the
  block is stuck and no response is produced)" (R47, U21). Safe: the model stops where the spec gives no step. -/
  | spanNotAdmitted
  deriving DecidableEq, Repr

/-- Why an instruction has no meaning. -/
inductive Refusal where
  /-- Raised by `exec`'s arm for an instruction that has no meaning yet. No arm does. Safe: the model stops. -/
  | notModelled (mnemonic : String)
  deriving DecidableEq, Repr

/-- `PROFILE` after hardware reset: the spec gives it no value (R30); DESIGN CHOICE, zero (log 1). -/
def Profile.reset : Profile :=
  { width := 0, poly := 0, init := 0, xorout := 0, refin := false, refout := false, dkernel := .byte }

/-- The state right after hardware reset (spec/10_state.md R30, spec/70_reset_and_hazards.md R190). `PROFILE`, `T`, `REG` and
`ACTIVE` have no value in the spec; DESIGN CHOICE, zero (log 1). -/
def State.reset : State :=
  { reg := 0
    profile := .reset
    table := Vector.replicate 32 (Vector.replicate 256 0)
    active := .byte
    configured := false
    resp := { status := 0, value := 0 }
    port := []
    mem := []
    unadmitted := []
    tuneBufMax := 0xFFFFFFFFFFFFFFFF
    draws := 0 }

end Sys2Proof.Machine
end

