-- ==== Sys2Proof/Machine/Operands.lean ====
section
/-! DEFINITION. The operators on W-bit values (spec/00_scope.md R10), and what the commands compute from their operands. -/

namespace Sys2Proof.Machine

/-! ### W-bit values, held in 64 bits (R9, R10, R121) -/

/-- `trunc_W`: bits W-1..0. -/
def truncW (w : Nat) (a : Word) : Word := (a.setWidth w).setWidth 64

/-- `shl_W(a, s)`: shift left, bits past bit W-1 are lost. -/
def shlW (w : Nat) (a : Word) (s : Nat) : Word := truncW w (a <<< s)

/-- `rev_W(a)`: bit reversal at width W. -/
def revW (w : Nat) (a : Word) : Word := (a.setWidth w).reverse.setWidth 64

/-- `rev_8(v)`. -/
def rev8 (v : Byte) : Byte := v.reverse

/-- The lowest `n` bytes of `a` in reverse order. -/
def swapBytes : (n : Nat) → (a : Word) → Word
  | 0, _ => 0
  | n + 1, a => ((a &&& 0xFF) <<< (8 * n)) ||| swapBytes n (a >>> 8)

/-- `bswap_W(a)`: byte reversal at width W in 16, 32, 64. -/
def bswapW (w : Nat) (a : Word) : Word := swapBytes (w / 8) a

/-- `v AND 0xFF`, as an index of a table row. -/
def lowByte (a : Word) : Byte := a.setWidth 8

/-- `(w >> 8b) AND 0xFF`: byte `b` of a 32-bit word (R133). -/
def wordByte (w : HalfWord) (b : Nat) : Byte := (w >>> (8 * b)).setWidth 8

/-! ### Operand checks and defaults -/

/-- W is one of the three widths (R90). -/
def isWidth (w : Nat) : Bool := w == 16 || w == 32 || w == 64

/-- `(a >> W) = 0`: the operand has no bit at or above bit W (R90). -/
def fitsWidth (w : Nat) (a : Word) : Bool := a >>> w == 0

/-- `addr + len <= 2^64`, the sum taken in the naturals (R111, R166). -/
def spanInRange (addr len : Word) : Bool := decide (addr.toNat + len.toNat ≤ 2 ^ 64)

/-- The span is in the set. -/
def SpanSet.has (S : SpanSet) (addr len : Nat) : Bool :=
  match S with
  | .touching base size =>
    decide (0 < len) && decide (0 < size) && decide (addr < base + size) && decide (base < addr + len)
  | .within addrLo addrHi lenLo lenHi =>
    decide (addrLo ≤ addr) && decide (addr ≤ addrHi) && decide (lenLo ≤ len) && decide (len ≤ lenHi)

/-- `MemAdmit(addr, len)`: the span, empty or not, is in none of the sets (R8, R47; log 3). -/
def memAdmit (unadmitted : List SpanSet) (addr len : Word) : Bool :=
  unadmitted.all fun S => !S.has addr.toNat len.toNat

/-- The effective buffer size of TUNE: `TUNE_DEFAULT_SIZE` = 8191 when `DS` = 1 (R150, R151). -/
def tuneSize (ds : Bool) (size : Word) : Word := if ds then 8191 else size

/-- The effective repeat count of TUNE: `TUNE_DEFAULT_REPEATS` = 128 when `DR` = 1 (R150, R151). -/
def tuneReps (dr : Bool) (reps : Word) : Word := if dr then 128 else reps

end Sys2Proof.Machine
end

