-- ==== Sys2Proof/Machine/Flags.lean ====
section
/-! DEFINITION. The status the block shows: the response register's values. The block has no condition codes and no
arithmetic flags (spec/10_state.md R25). -/

namespace Sys2Proof.Machine

/-- The code of a fault (spec/60_exceptions.md R160). -/
def CmdFault.code : CmdFault → BitVec 8
  | .unsupportedWidth => 1
  | .invalidProfile => 2
  | .notConfigured => 3
  | .illegalCommand => 4
  | .spanRange => 5
  | .tuneRange => 6

/-- The response of a command that ends normally with value `v` (spec/00_scope.md R11 `respond(v)`, 30_encoding.md R72). -/
def Resp.ok (v : Word) : Resp := { status := 0, value := v }

/-- The response of a command that ends by a fault: its code, value 0 (R160). -/
def Resp.fault (f : CmdFault) : Resp := { status := f.code, value := 0 }

end Sys2Proof.Machine
end

