-- ==== Sys2Proof/Machine/Ops.lean ====
section
/-! DEFINITION. The named operations: `MEM`, the table's reads, and the two ways a command ends. -/

namespace Sys2Proof.Machine

/-! ### MEM (spec/20_memory.md R40 to R47) -/

/-- What an unlisted address reads as: DESIGN CHOICE, the spec gives `MEM` no contents (log 2). -/
def Memory.unlisted : Byte := 0

/-- The canonical form, for entries from address `lo` up: strictly rising addresses below 2^64, no entry that reads as an
unlisted address does. -/
def Memory.wfFrom (lo : Nat) : Memory → Bool
  | [] => true
  | (a, b) :: rest =>
    decide (lo ≤ a) && decide (a < 2 ^ 64) && b != Memory.unlisted && Memory.wfFrom (a + 1) rest

/-- The memory is in canonical form. -/
def Memory.wf (m : Memory) : Bool := Memory.wfFrom 0 m

/-- `MemRead(addr, 1)`: the byte at an address. -/
def Memory.read : Memory → Nat → Byte
  | [], _ => Memory.unlisted
  | (a, b) :: rest, addr => if addr = a then b else Memory.read rest addr

/-- The entry for one byte: none where the byte is what an unlisted address reads as. -/
def Memory.entry (a : Nat) (v : Byte) : Memory := if v = Memory.unlisted then [] else [(a, v)]

/-- The memory with one byte set, in canonical form. Only the host does this: "never the block" (R40). -/
def Memory.write : Memory → Nat → Byte → Memory
  | [], addr, v => Memory.entry addr v
  | (a, b) :: rest, addr, v =>
    if addr < a then Memory.entry addr v ++ (a, b) :: rest
    else if addr = a then Memory.entry addr v ++ rest
    else (a, b) :: Memory.write rest addr v

/-- `MemRead(addr, 4)`: four byte reads, the byte at the lowest address least significant, at any address (R43, R45). -/
def Memory.readWord (m : Memory) (addr : Nat) : HalfWord :=
  m.read (addr + 3) ++ m.read (addr + 2) ++ m.read (addr + 1) ++ m.read addr

/-- The bytes of a span, in ascending address order (R41). -/
def Memory.span (m : Memory) (addr : Nat) : (len : Nat) → List Byte
  | 0 => []
  | len + 1 => m.read addr :: Memory.span m (addr + 1) len

/-! ### The table's reads -/

/-- `T[j][i]` (spec/00_scope.md R11). There is no row from 32 up, and no rule reads one. -/
def tableGet (T : Table) (j : Nat) (i : Byte) : Word :=
  if h : j < 32 then T[j][i.toNat]'i.isLt else 0

/-! ### How a command ends (spec/00_scope.md R11) -/

/-- `respond(v)`: the command ends normally. -/
def State.respond (s : State) (v : Word) : State := { s with resp := .ok v }

/-- `raise f`: the block's whole fault entry. `RESP` is written and nothing else changes; there is no saved state, no vector,
no mode and no return (spec/60_exceptions.md R160, R168, R169, R170). -/
def State.raise (s : State) (f : CmdFault) : State := { s with resp := .fault f }

end Sys2Proof.Machine
end

