-- ==== Sys2Proof/Machine/Table.lean ====
section
/-! DEFINITION. The table builder (spec/40_profile_and_table.md R92, R93) and the register's initial value (R110). -/

namespace Sys2Proof.Machine

/-- The vector of the values of `f`. -/
def vectorOf {α : Type} {n : Nat} (f : Fin n → α) : Vector α n := ⟨⟨List.ofFn f⟩, by simp⟩

/-- One step of the polynomial division: test the high bit, shift left, XOR the polynomial if it was set (R92). -/
def bitStep (P : Profile) (r : Word) : Word :=
  if r.getLsbD (P.width - 1) then shlW P.width r 1 ^^^ P.poly else shlW P.width r 1

/-- `n` such steps. -/
def bitSteps (P : Profile) : (n : Nat) → (r : Word) → Word
  | 0, r => r
  | n + 1, r => bitSteps P n (bitStep P r)

/-- A byte in the top byte of a W-bit register, bit-reversed first if the profile reflects its input (R92, R118). -/
def topByte (P : Profile) (v : Byte) : Word :=
  shlW P.width ((if P.refin then rev8 v else v).setWidth 64) (P.width - 8)

/-- `Table(P)[0][v]` (R92). -/
def rowZeroEntry (P : Profile) (v : Byte) : Word :=
  let r := bitSteps P 8 (topByte P v)
  if P.refin then revW P.width r else r

/-- Row 0 of the table. -/
def rowZero (P : Profile) : Row := vectorOf fun i => rowZeroEntry P (.ofFin i)

/-- An entry advanced by one row, from row 0 (R93). -/
def nextEntry (P : Profile) (row0 : Row) (t : Word) : Word :=
  if P.refin then (t >>> 8) ^^^ row0[(lowByte t).toNat]'(lowByte t).isLt
  else shlW P.width t 8 ^^^ row0[(lowByte (t >>> (P.width - 8))).toNat]'(lowByte (t >>> (P.width - 8))).isLt

/-- `Table(P)[j][i]`, from row 0 (R93). -/
def tableEntry (P : Profile) (row0 : Row) : (j : Nat) → (i : Byte) → Word
  | 0, i => row0[i.toNat]'i.isLt
  | j + 1, i => nextEntry P row0 (tableEntry P row0 j i)

/-- `Table(P)`: all 8192 entries, a function of the profile alone (R23, R94). -/
def tableOf (P : Profile) : Table :=
  let row0 := rowZero P
  vectorOf fun j => vectorOf fun i => tableEntry P row0 j.val (.ofFin i)

/-- `InitReg(P)` (R110). -/
def initReg (P : Profile) : Word := if P.refin then revW P.width P.init else P.init

end Sys2Proof.Machine
end

