-- ==== Sys2Proof/Machine/Kernels.lean ====
section
/-! DEFINITION. The five processing kernels (spec/42_kernels.md R130 to R140). -/

namespace Sys2Proof.Machine

/-! ### The byte kernel (R131) -/

/-- One byte folded into the register. -/
def byteStep (P : Profile) (T : Table) (reg : Word) (v : Byte) : Word :=
  if P.refin then (reg >>> 8) ^^^ tableGet T 0 (lowByte (reg ^^^ v.setWidth 64))
  else shlW P.width reg 8 ^^^ tableGet T 0 (lowByte ((reg >>> (P.width - 8)) ^^^ v.setWidth 64))

/-- The bytes of a span folded one at a time, in ascending order. -/
def byteKernel (P : Profile) (T : Table) (m : Memory) (reg : Word) (addr : Nat) : (len : Nat) → Word
  | 0 => reg
  | len + 1 => byteKernel P T m (byteStep P T reg (m.read addr)) (addr + 1) len

/-! ### One block of a word kernel -/

/-- The block at `ptr` read as `n` words (R132). -/
def blockWords (m : Memory) (ptr : Nat) : (n : Nat) → List HalfWord
  | 0 => []
  | n + 1 => m.readWord ptr :: blockWords m (ptr + 4) n

/-- `A`: the register as it is absorbed, byte-swapped unless the profile reflects its input (R132). -/
def absorbed (P : Profile) (reg : Word) : Word := if P.refin then reg else bswapW P.width reg

/-- The absorb step: `A` XORed into the first word, and for W = 64 its high half into the second, if there is one. For
W = 16 and W = 32, bits 31..W of `A` are zero and `w_1` keeps them (R132, R138). -/
def absorb (P : Profile) (reg : Word) : List HalfWord → List HalfWord
  | [] => []
  | w1 :: rest =>
    let A := absorbed P reg
    let w1' := w1 ^^^ A.setWidth 32
    if P.width = 64 then
      match rest with
      | [] => [w1']
      | w2 :: rest' => w1' :: (w2 ^^^ (A >>> 32).setWidth 32) :: rest'
    else w1' :: rest

/-- The half of the register the 1-word kernel does not absorb at W = 64; 0 in every other case (R138). -/
def carry (P : Profile) (n : Nat) (reg : Word) : Word :=
  if P.width = 64 ∧ n = 1 then (if P.refin then reg >>> 32 else shlW 64 reg 32) else 0

/-- The XOR of the table entries of a block's words: word k of n uses rows 4(n-k)..4(n-k)+3, its most significant byte the
lowest, and n-k is how many words follow it (R133). -/
def foldWords (T : Table) : List HalfWord → Word
  | [] => 0
  | w :: rest =>
    let row := 4 * rest.length
    tableGet T (row + 3) (wordByte w 0) ^^^ tableGet T (row + 2) (wordByte w 1) ^^^
      tableGet T (row + 1) (wordByte w 2) ^^^ tableGet T row (wordByte w 3) ^^^ foldWords T rest

/-- The register after one block of `n` words at `ptr` (R133). -/
def foldBlock (P : Profile) (T : Table) (m : Memory) (n : Nat) (reg : Word) (ptr : Nat) : Word :=
  carry P n reg ^^^ foldWords T (absorb P reg (blockWords m ptr n))

/-! ### Blocks and tail (R139, R140) -/

/-- `blocks` consecutive blocks from `ptr`. -/
def foldBlocks (P : Profile) (T : Table) (m : Memory) (n : Nat) (reg : Word) (ptr : Nat) : (blocks : Nat) → Word
  | 0 => reg
  | blocks + 1 => foldBlocks P T m n (foldBlock P T m n reg ptr) (ptr + 4 * n) blocks

/-- The word kernel of `n` words: as many full blocks as the span holds, the rest by the byte kernel. -/
def wordKernel (n : Nat) (P : Profile) (T : Table) (m : Memory) (reg : Word) (addr len : Nat) : Word :=
  let blocks := len / (4 * n)
  byteKernel P T m (foldBlocks P T m n reg addr blocks) (addr + 4 * n * blocks) (len % (4 * n))

/-- `Kernel(k, P, T, reg, addr, len)` (R130). -/
def runKernel (k : Kernel) (P : Profile) (T : Table) (m : Memory) (reg : Word) (addr len : Nat) : Word :=
  match k with
  | .byte => byteKernel P T m reg addr len
  | .w1 => wordKernel 1 P T m reg addr len
  | .w2 => wordKernel 2 P T m reg addr len
  | .w4 => wordKernel 4 P T m reg addr len
  | .w8 => wordKernel 8 P T m reg addr len

end Sys2Proof.Machine
end

