-- ==== Sys2Proof/Machine/Make.lean ====
section
/-! DEFINITION. MAKE and the presets: the commands that create the engine (spec/40_profile_and_table.md R90 to R102). -/

namespace Sys2Proof.Machine

/-- The engine created whole: the profile, its table, the register, the active kernel (R90, R191). -/
def State.create (s : State) (P : Profile) : State :=
  { s with
    profile := P
    table := tableOf P
    reg := initReg P
    active := P.dkernel
    configured := true
    resp := .ok 0 }

/-- The checks of MAKE, in order, then the creation (R90, R91): a failed MAKE changes `RESP` only. -/
def makeEngine (P : Profile) (s : State) : Host.Outcome State Fault Refusal :=
  if ¬ isWidth P.width then .next (s.raise .unsupportedWidth)
  else if ¬ (fitsWidth P.width P.poly ∧ fitsWidth P.width P.init ∧ fitsWidth P.width P.xorout) then
    .next (s.raise .invalidProfile)
  else .next (s.create P)

/-- MAKE (R90). A kernel number 5, 6 or 7 is a fault of the decoder (R67, R165), which never hands one on; the meaning says
the same of it. -/
def execMake (wd : BitVec 8) (k : BitVec 3) (ri ro : Bool) (poly ini xorout : Word) (s : State) :
    Host.Outcome State Fault Refusal :=
  match kernelOfNumber k with
  | none => .next (s.raise .illegalCommand)
  | some kern =>
    makeEngine
      { width := wd.toNat, poly := poly, init := ini, xorout := xorout, refin := ri, refout := ro, dkernel := kern } s

/-- `PRESET_ROM` (R100), with the open default kernel (R8; log 6). The two 64-bit rows are the spec's choice among what the
source says of them (R101, D31; log 11). -/
def presetProfile : Preset → Profile
  | .crc16 =>
    { width := 16, poly := 0x8005, init := 0x0000, xorout := 0x0000, refin := true, refout := true
      dkernel := Config.presetDkernel .crc16 }
  | .crc16Ccitt =>
    { width := 16, poly := 0x1021, init := 0xFFFF, xorout := 0x0000, refin := false, refout := false
      dkernel := Config.presetDkernel .crc16Ccitt }
  | .crc32 =>
    { width := 32, poly := 0x04C11DB7, init := 0xFFFFFFFF, xorout := 0xFFFFFFFF, refin := true, refout := true
      dkernel := Config.presetDkernel .crc32 }
  | .crc64 =>
    { width := 64, poly := 0x42F0E1EBA9EA3693, init := 0xFFFFFFFFFFFFFFFF, xorout := 0xFFFFFFFFFFFFFFFF
      refin := true, refout := true, dkernel := Config.presetDkernel .crc64 }
  | .crc64Iso =>
    { width := 64, poly := 0x1B, init := 0, xorout := 0, refin := true, refout := true
      dkernel := Config.presetDkernel .crc64Iso }

/-- CRC16 (R95). -/
def execCrc16 (s : State) : Host.Outcome State Fault Refusal := makeEngine (presetProfile .crc16) s

/-- CRC16_CCITT (R96). -/
def execCrc16Ccitt (s : State) : Host.Outcome State Fault Refusal := makeEngine (presetProfile .crc16Ccitt) s

/-- CRC32 (R97). -/
def execCrc32 (s : State) : Host.Outcome State Fault Refusal := makeEngine (presetProfile .crc32) s

/-- CRC64 (R98). -/
def execCrc64 (s : State) : Host.Outcome State Fault Refusal := makeEngine (presetProfile .crc64) s

/-- CRC64_ISO (R99). -/
def execCrc64Iso (s : State) : Host.Outcome State Fault Refusal := makeEngine (presetProfile .crc64Iso) s

end Sys2Proof.Machine
end

