-- ==== Sys2Proof/Machine/Engine.lean ====
section
/-! DEFINITION. RESET, CONSUME, CONSUMEK.* and DIGEST (spec/41_engine_ops.md R110 to R113). -/

namespace Sys2Proof.Machine

/-- RESET (R110). -/
def execReset (s : State) : Host.Outcome State Fault Refusal :=
  if ¬ s.configured then .next (s.raise .notConfigured)
  else .next ({ s with reg := initReg s.profile }.respond 0)

/-- The wrapper of every consume command, with the kernel it runs (R111, R112): the checks in their order, a span the
platform does not admit, an empty one too (R47; log 17), then the kernel over the span. -/
def consumeWith (k : Kernel) (addr len : Word) (s : State) : Host.Outcome State Fault Refusal :=
  if ¬ s.configured then .next (s.raise .notConfigured)
  else if ¬ spanInRange addr len then .next (s.raise .spanRange)
  else if ¬ memAdmit s.unadmitted addr len then .fault .spanNotAdmitted
  else .next ({ s with reg := runKernel k s.profile s.table s.mem s.reg addr.toNat len.toNat }.respond 0)

/-- CONSUME: the kernel `ACTIVE` names (R111). -/
def execConsume (addr len : Word) (s : State) : Host.Outcome State Fault Refusal := consumeWith s.active addr len s

/-- CONSUMEK.BYTE (R112, R131). -/
def execConsumekByte (addr len : Word) (s : State) : Host.Outcome State Fault Refusal := consumeWith .byte addr len s

/-- CONSUMEK.1W (R112, R134). -/
def execConsumek1w (addr len : Word) (s : State) : Host.Outcome State Fault Refusal := consumeWith .w1 addr len s

/-- CONSUMEK.2W (R112, R135). -/
def execConsumek2w (addr len : Word) (s : State) : Host.Outcome State Fault Refusal := consumeWith .w2 addr len s

/-- CONSUMEK.4W (R112, R136). -/
def execConsumek4w (addr len : Word) (s : State) : Host.Outcome State Fault Refusal := consumeWith .w4 addr len s

/-- CONSUMEK.8W (R112, R137). -/
def execConsumek8w (addr len : Word) (s : State) : Host.Outcome State Fault Refusal := consumeWith .w8 addr len s

/-- The digest of a register value: reversed when the two reflection flags differ, then XORed (R113). -/
def digestOf (P : Profile) (reg : Word) : Word :=
  (if P.refout ^^ P.refin then revW P.width reg else reg) ^^^ P.xorout

/-- DIGEST (R113). -/
def execDigest (s : State) : Host.Outcome State Fault Refusal :=
  if ¬ s.configured then .next (s.raise .notConfigured)
  else .next (s.respond (digestOf s.profile s.reg))

end Sys2Proof.Machine
end

