-- ==== Sys2Proof/Machine/Tuner.lean ====
section
/-! DEFINITION. TUNE, architectural effect only (spec/43_tuner.md R150 to R157). -/

namespace Sys2Proof.Machine

/-- TUNE (R150). The new `ACTIVE` is a free value (R152; log 5). -/
def execTune (ds dr : Bool) (size reps : Word) (s : State) : Host.Outcome State Fault Refusal :=
  if ¬ s.configured then .next (s.raise .notConfigured)
  else if s.tuneBufMax < tuneSize ds size then .next (s.raise .tuneRange)
  else
    .next ({ s with
      active := Config.tuneDraw s.draws (tuneSize ds size) (tuneReps dr reps)
      reg := initReg s.profile
      draws := s.draws + 1 }.respond 0)

end Sys2Proof.Machine
end

