-- ==== Sys2Proof/Machine/Port.lean ====
section
/-! DEFINITION. The command port (spec/30_encoding.md R60, R69) and what the host can do to the block between two commands
(spec/20_memory.md R40, spec/70_reset_and_hazards.md R190). -/

namespace Sys2Proof.Machine

/-- What stands at the front of the port. -/
def fetch (s : State) : Decoded := decode s.port

/-- The state whose port has given a descriptor away. -/
def State.takeDescriptor (s : State) (rest : List Word) : State := { s with port := rest }

/-- "A stream that ends inside a descriptor leaves the block waiting for the missing words; nothing is executed" (R69):
the state does not change (log 7). -/
def waitForWords (s : State) : Host.Outcome State Fault Refusal := .next s

/-- An illegal header: its words are taken, `IllegalCommand` (R67, R165). -/
def rejectHeader (rest : List Word) (s : State) : Host.Outcome State Fault Refusal :=
  .next ((s.takeDescriptor rest).raise .illegalCommand)

/-! ### The host's actions, none of them a step of the block (log 10) -/

/-- The host delivers words to the port, in order (R60). -/
def State.deliver (s : State) (words : List Word) : State := { s with port := s.port ++ words }

/-- The host or the platform sets a byte of `MEM` (R40). -/
def State.hostWrite (s : State) (addr : Word) (v : Byte) : State := { s with mem := s.mem.write addr.toNat v }

/-- The host fills `MEM` with bytes from an address up. DESIGN CHOICE: of a fill that runs past the last address the bytes
past it are dropped; the spec gives the host no such fill and says "Addresses never wrap." (R47; log 10). -/
def State.hostFill (s : State) (addr : Word) : (bytes : List Byte) → State
  | [] => s
  | v :: rest =>
    if addr = 0xFFFFFFFFFFFFFFFF then s.hostWrite addr v else State.hostFill (s.hostWrite addr v) (addr + 1) rest

/-- Hardware reset (R190, R30): the block's registers as `State.reset` has them, a partial descriptor discarded. `MEM` and
the platform's parameters are not the block's and stay (log 8). -/
def State.hardwareReset (s : State) : State :=
  { State.reset with
    mem := s.mem
    unadmitted := s.unadmitted
    tuneBufMax := s.tuneBufMax
    draws := s.draws }

end Sys2Proof.Machine
end

