-- ==== Sys2Proof/Machine/Dispatch.lean ====
section
/-! DEFINITION. Which meaning each command has. -/

namespace Sys2Proof.Machine

def exec (i : Instr) (s : State) : Host.Outcome State Fault Refusal :=
  match i with
  | .make wd k ri ro poly ini xorout => Sys2Proof.Machine.execMake wd k ri ro poly ini xorout s
  | .reset => Sys2Proof.Machine.execReset s
  | .consume addr len => Sys2Proof.Machine.execConsume addr len s
  | .consumekByte addr len => Sys2Proof.Machine.execConsumekByte addr len s
  | .consumek1w addr len => Sys2Proof.Machine.execConsumek1w addr len s
  | .consumek2w addr len => Sys2Proof.Machine.execConsumek2w addr len s
  | .consumek4w addr len => Sys2Proof.Machine.execConsumek4w addr len s
  | .consumek8w addr len => Sys2Proof.Machine.execConsumek8w addr len s
  | .digest => Sys2Proof.Machine.execDigest s
  | .tune ds dr size reps => Sys2Proof.Machine.execTune ds dr size reps s
  | .crc16 => Sys2Proof.Machine.execCrc16 s
  | .crc16Ccitt => Sys2Proof.Machine.execCrc16Ccitt s
  | .crc32 => Sys2Proof.Machine.execCrc32 s
  | .crc64 => Sys2Proof.Machine.execCrc64 s
  | .crc64Iso => Sys2Proof.Machine.execCrc64Iso s

end Sys2Proof.Machine
end

