-- ==== Sys2Proof/Machine/Step.lean ====
section
/-! DEFINITION. One step: one whole command, from decode to response (spec/00_scope.md R6). -/

namespace Sys2Proof.Machine

/-- One step of the block. -/
def step (s : State) : Host.Outcome State Fault Refusal :=
  match fetch s with
  | .waiting => waitForWords s
  | .illegal _ rest => rejectHeader rest s
  | .command i rest => exec i (s.takeDescriptor rest)

/-- The state whose next step runs the command whose bits are `w`: its descriptor stands first in the port, before
whatever the port held (log 8). -/
def State.withFetchWord (s : State) (nbits w : Nat) : State :=
  { s with port := descriptorOfBits nbits w ++ s.port }

end Sys2Proof.Machine
end

