-- ==== Sys2Proof/Machine/Reference.lean ====
section
/-! DEFINITION. What the engine computes, said without a table: the bit-serial reference (spec/41_engine_ops.md R118). No
meaning uses it; claims hold the table-driven step to it. -/

namespace Sys2Proof.Machine

/-- The reference's register after one more byte of the message. -/
def serialByte (P : Profile) (r : Word) (b : Byte) : Word := bitSteps P 8 (r ^^^ topByte P b)

/-- The digest of a message, bit by bit (R118). -/
def serialDigest (P : Profile) (message : List Byte) : Word :=
  let r := message.foldl (serialByte P) P.init
  (if P.refout then revW P.width r else r) ^^^ P.xorout

end Sys2Proof.Machine
end

