-- ==== Sys2Proof/Safety.lean ====
section
/-! DEFINITION. The terms claims use: legal profiles, the invariant of the block, groups of commands, the order of faults. -/

namespace Sys2Proof

/-- The commands that fault on a block with no engine: all but MAKE and the presets (R164). -/
def Instr.needsEngine : Instr → Bool
  | .make _ _ _ _ _ _ _ => false
  | .reset => true
  | .consume _ _ => true
  | .consumekByte _ _ => true
  | .consumek1w _ _ => true
  | .consumek2w _ _ => true
  | .consumek4w _ _ => true
  | .consumek8w _ _ => true
  | .digest => true
  | .tune _ _ _ _ => true
  | .crc16 => false
  | .crc16Ccitt => false
  | .crc32 => false
  | .crc64 => false
  | .crc64Iso => false

end Sys2Proof

namespace Sys2Proof.Machine

/-- A profile a successful MAKE can have given the block (spec/10_state.md R22, R29 item 1). -/
abbrev Profile.Legal (P : Profile) : Prop :=
  (P.width = 16 ∨ P.width = 32 ∨ P.width = 64) ∧
    P.poly.toNat < 2 ^ P.width ∧ P.init.toNat < 2 ^ P.width ∧ P.xorout.toNat < 2 ^ P.width

/-- What holds of a configured block (R29 items 1 to 3); that the kernels are among the five is said by their type. -/
abbrev State.EngineOk (s : State) : Prop :=
  s.profile.Legal ∧ s.table = tableOf s.profile ∧ s.reg.toNat < 2 ^ s.profile.width

/-- The invariant every step keeps: a configured block is as R29 says, and `MEM` is in its canonical form. -/
abbrev State.Inv (s : State) : Prop := (s.configured = true → s.EngineOk) ∧ s.mem.wf = true

/-- The span lies inside the address space and the platform admits it (R47). -/
abbrev State.Reads (s : State) (addr len : Word) : Prop :=
  addr.toNat + len.toNat ≤ 2 ^ 64 ∧ memAdmit s.unadmitted addr len = true

/-- The six commands that consume a span. -/
def consumeForms (addr len : Word) : List Instr :=
  [.consume addr len, .consumekByte addr len, .consumek1w addr len, .consumek2w addr len, .consumek4w addr len,
    .consumek8w addr len]

/-- The MAKE that asks for a legal profile. -/
def makeOf (P : Profile) : Instr :=
  .make (BitVec.ofNat 8 P.width) (kernelNumber P.dkernel) P.refin P.refout P.poly P.init P.xorout

/-- The fault of a command that needs an engine, given the fault of its own check. -/
def withEngine (s : State) (own : Option CmdFault) : Option CmdFault :=
  if s.configured then own else some .notConfigured

/-- The fault of a span's own check. -/
def spanFault (addr len : Word) : Option CmdFault :=
  if 2 ^ 64 < addr.toNat + len.toNat then some .spanRange else none

/-- The first fault that applies to a command, in the order of spec/60_exceptions.md R168. -/
def firstFault (i : Instr) (s : State) : Option CmdFault :=
  match i with
  | .make wd k _ _ poly ini xorout =>
    if 4 < k then some .illegalCommand
    else if ¬ (wd.toNat = 16 ∨ wd.toNat = 32 ∨ wd.toNat = 64) then some .unsupportedWidth
    else if 2 ^ wd.toNat ≤ poly.toNat ∨ 2 ^ wd.toNat ≤ ini.toNat ∨ 2 ^ wd.toNat ≤ xorout.toNat then some .invalidProfile
    else none
  | .reset => withEngine s none
  | .consume addr len => withEngine s (spanFault addr len)
  | .consumekByte addr len => withEngine s (spanFault addr len)
  | .consumek1w addr len => withEngine s (spanFault addr len)
  | .consumek2w addr len => withEngine s (spanFault addr len)
  | .consumek4w addr len => withEngine s (spanFault addr len)
  | .consumek8w addr len => withEngine s (spanFault addr len)
  | .digest => withEngine s none
  | .tune ds _ size _ =>
    withEngine s (if s.tuneBufMax.toNat < (if ds then 8191 else size.toNat) then some .tuneRange else none)
  | .crc16 => none
  | .crc16Ccitt => none
  | .crc32 => none
  | .crc64 => none
  | .crc64Iso => none

end Sys2Proof.Machine
end

