-- ==== Sys2Proof/Certificates/Slice0/Obligations.lean ====
section
/-! DEFINITION. The statements about the machine. Each docstring names the rule of spec/ it formalises, and the log entry
where a clause rests on the model's own choice. -/

open Sys2Proof Sys2Proof.Machine

/-! ### Encoding -/

/-- The worked encodings of R74. -/
def Obligations.WorkedEncodingsDecode : Prop :=
  decode [0x12] = .command .crc32 [] ∧
    decode [0x100101, 0x1021, 0xFFFF, 0] = .command (.make 16 1 false false 0x1021 0xFFFF 0) [] ∧
    decode [0x201C01, 0x04C11DB7, 0xFFFFFFFF, 0xFFFFFFFF] =
      .command (.make 32 4 true true 0x04C11DB7 0xFFFFFFFF 0xFFFFFFFF) [] ∧
    decode [0x304, 0x1000, 9] = .command (.consumek4w 0x1000 9) [] ∧
    decode [0x3000006, 0, 0] = .command (.tune true true 0 0) [] ∧
    decode [0x5] = .command .digest []

/-- Every well-formed command is read back from its encoding, with every operand, and the rest of the stream is left. -/
def Obligations.EncodedCommandsDecodeToThemselves : Prop :=
  ∀ (i : Instr) (rest : List Word), WellFormed i → decode (encode i ++ rest) = .command i rest

/-- A stream that decodes to a command begins with that command's encoding: each command has one encoding. -/
def Obligations.DecodedCommandsHaveOneEncoding : Prop :=
  ∀ (ws : List Word) (i : Instr) (rest : List Word),
    decode ws = .command i rest → WellFormed i ∧ ws = encode i ++ rest

/-- The decoder finds the length from the opcode alone, waits for a stream that ends inside a descriptor, and decodes every
other stream, taking exactly the descriptor's words, of an illegal header too (R62, R69). -/
def Obligations.DecoderTakesTheDescriptorOfItsOpcode : Prop :=
  decode [] = .waiting ∧
    ∀ (h : Word) (ops : List Word) (L : Nat),
      L = (if opOf h = 0x01 then 4 else if opOf h ∈ [0x03, 0x04, 0x06] then 3 else 1) →
        (ops.length + 1 < L → decode (h :: ops) = .waiting) ∧
        (L ≤ ops.length + 1 →
          (∀ why, illegalReason h = some why → decode (h :: ops) = .illegal why (ops.drop (L - 1))) ∧
          (illegalReason h = none → ∃ i, decode (h :: ops) = .command i (ops.drop (L - 1))))

/-- The four tests of R67, in their order, on the fields of R61. -/
def Obligations.IllegalHeadersFailATestInOrder : Prop :=
  ∀ h : Word,
    illegalReason h =
      if opOf h ∉ [0x01, 0x02, 0x03, 0x04, 0x05, 0x06, 0x10, 0x11, 0x12, 0x13, 0x14] then some .opcode
      else if h.extractLsb' 13 3 ≠ 0 ∨ h.extractLsb' 26 38 ≠ 0 then some .reservedBit
      else if (opOf h ≠ 0x01 ∧ opOf h ≠ 0x04 ∧ kOf h ≠ 0) ∨
          (opOf h ≠ 0x01 ∧ (riOf h = true ∨ roOf h = true ∨ wdOf h ≠ 0)) ∨
          (opOf h ≠ 0x06 ∧ (dsOf h = true ∨ drOf h = true)) then some .unusedField
      else if (opOf h = 0x01 ∨ opOf h = 0x04) ∧ (kOf h = 5 ∨ kOf h = 6 ∨ kOf h = 7) then some .kernelNumber
      else none

/-- A header is legal exactly when it selects one row of the opcode table and, for MAKE, `K` is at most 4; no header selects
two rows (R66, R67). -/
def Obligations.LegalHeadersSelectOneRow : Prop :=
  ∀ h : Word,
    (illegalReason h = none ↔
      (∃ row ∈ opcodeRows, selectsRow h row = true) ∧ (opOf h = 0x01 → kOf h ≤ 4)) ∧
    (∀ row ∈ opcodeRows, ∀ row' ∈ opcodeRows, selectsRow h row = true → selectsRow h row' = true → row = row')

/-- The assembler's pseudo-commands expand as R71 says; a byte count that does not fit 64 bits is refused by the assembler. -/
def Obligations.PseudoCommandsExpand : Prop :=
  encode pseudoTune = [0x3000006, 0, 0] ∧
    (∀ size, encode (pseudoTuneSize size) = [0x2000006, size, 0]) ∧
    (∀ reps, encode (pseudoTuneReps reps) = [0x1000006, 0, reps]) ∧
    ∀ (k : Kernel) (addr : Word) (count esize : Nat),
      (count * esize < 2 ^ 64 →
        pseudoConsumeW addr count esize = some (.consume addr (BitVec.ofNat 64 (count * esize))) ∧
        (pseudoConsumeKW k addr count esize).map encode =
          some [0x04 + 0x100 * (kernelNumber k).setWidth 64, addr, BitVec.ofNat 64 (count * esize)]) ∧
      (2 ^ 64 ≤ count * esize → pseudoConsumeW addr count esize = none ∧ pseudoConsumeKW k addr count esize = none)

/-! ### The step -/

/-- A step runs the command its port decodes to, in the state whose port has given the descriptor away. -/
def Obligations.StepRunsTheDecodedCommand : Prop :=
  ∀ (s : State) (i : Instr) (rest : List Word),
    decode s.port = .command i rest → step s = exec i { s with port := rest }

/-- A word placed at the front of the port runs at the very next step, and leaves the port as it was (log 8). -/
def Obligations.PlacedWordsRunAtTheNextStep : Prop :=
  ∀ (s : State) (nbits w : Nat) (i : Instr),
    decodeTableWord nbits w = some i → step (s.withFetchWord nbits w) = exec i s

/-- An illegal header at the port, its descriptor delivered: its words are taken, `RESP` is (4, 0), nothing else changes,
whatever the state (R165). -/
def Obligations.IllegalHeadersAreTakenAndFault : Prop :=
  ∀ (s : State) (h : Word) (ops : List Word) (why : Illegal),
    s.port = h :: ops → illegalReason h = some why → descriptorLength (opOf h) ≤ ops.length + 1 →
      step s = .next { s with
        port := ops.drop (descriptorLength (opOf h) - 1)
        resp := { status := 4, value := 0 } }

/-- A block whose port holds only part of a descriptor waits, changing nothing; when the host delivers the missing words the
command runs (R60, R69). That waiting is a step that changes nothing is the model's (log 7). -/
def Obligations.PartialDescriptorsWaitForTheirWords : Prop :=
  ∀ (s : State) (i : Instr) (given missing : List Word),
    WellFormed i → encode i = given ++ missing → missing ≠ [] → s.port = given →
      step s = .next s ∧ step (s.deliver missing) = exec i { s with port := [] }

/-! ### Hardware reset -/

/-- Hardware reset clears `CONFIGURED` and `RESP` and drops a partial descriptor, and the block then starts nothing by
itself (R190); the state a run starts from is such a state. That `MEM` stays is the model's (log 8), and so is that waiting is
a step that changes nothing (log 7). -/
def Obligations.HardwareResetLeavesTheBlockWaiting : Prop :=
  (∀ s : State,
    s.hardwareReset.configured = false ∧ s.hardwareReset.resp = { status := 0, value := 0 } ∧
      s.hardwareReset.port = [] ∧ s.hardwareReset.mem = s.mem ∧
      step s.hardwareReset = .next s.hardwareReset) ∧
    State.reset.configured = false ∧ State.reset.resp = { status := 0, value := 0 } ∧ State.reset.port = []

/-- No command reads `REG`, `PROFILE`, `T` or `ACTIVE` of a block that is not configured: whatever they hold, it ends alike,
and either all four are then written or none is (R30). So no claim about a run can rest on the values the model gives them
at reset (log 1). -/
def Obligations.UnconfiguredRegistersAreNotRead : Prop :=
  ∀ (i : Instr) (s : State) (r : Word) (P : Profile) (T : Table) (k : Kernel), s.configured = false →
    ∃ t t', exec i s = .next t ∧ exec i { s with reg := r, profile := P, table := T, active := k } = .next t' ∧
      ((t.configured = true ∧ t' = t) ∨
        (t.configured = false ∧ t' = { t with reg := r, profile := P, table := T, active := k }))

/-! ### MAKE and the presets -/

/-- MAKE with a kernel, a legal width and operands below 2^W creates the engine: all of `PROFILE`, `T`, `REG` (`init`,
reversed if `RI`), `ACTIVE` and `CONFIGURED` are written, in any state (R90). -/
def Obligations.MakeCreatesTheEngine : Prop :=
  ∀ (s : State) (wd : BitVec 8) (k : BitVec 3) (kern : Kernel) (ri ro : Bool) (poly ini xorout : Word) (P : Profile),
    kernelOfNumber k = some kern → wd.toNat = 16 ∨ wd.toNat = 32 ∨ wd.toNat = 64 →
    poly.toNat < 2 ^ wd.toNat → ini.toNat < 2 ^ wd.toNat → xorout.toNat < 2 ^ wd.toNat →
    P = { width := wd.toNat, poly := poly, init := ini, xorout := xorout, refin := ri, refout := ro, dkernel := kern } →
      exec (.make wd k ri ro poly ini xorout) s =
        .next { s with
          profile := P
          table := tableOf P
          reg := if ri then revW wd.toNat ini else ini
          active := kern
          configured := true
          resp := { status := 0, value := 0 } }

/-- `UnsupportedWidth`: MAKE with any other width changes `RESP` only, whatever the profile operands; a preset cannot raise it
(R161). -/
def Obligations.MakeFaultsOnAnUnsupportedWidth : Prop :=
  (∀ (s : State) (wd : BitVec 8) (k : BitVec 3) (ri ro : Bool) (poly ini xorout : Word),
    k ≤ 4 → wd.toNat ≠ 16 → wd.toNat ≠ 32 → wd.toNat ≠ 64 →
      exec (.make wd k ri ro poly ini xorout) s = .next { s with resp := { status := 1, value := 0 } }) ∧
  ∀ (s t : State), ∀ i ∈ [Instr.crc16, .crc16Ccitt, .crc32, .crc64, .crc64Iso],
    exec i s = .next t → t.resp.status ≠ 1

/-- `InvalidProfile`: MAKE at width 16 or 32 with any of the three operands 2^W or more changes `RESP` only; at width 64 it
cannot be raised (R162). -/
def Obligations.MakeFaultsOnAnInvalidProfile : Prop :=
  (∀ (s : State) (wd : BitVec 8) (k : BitVec 3) (ri ro : Bool) (poly ini xorout : Word),
    k ≤ 4 → wd.toNat = 16 ∨ wd.toNat = 32 →
    2 ^ wd.toNat ≤ poly.toNat ∨ 2 ^ wd.toNat ≤ ini.toNat ∨ 2 ^ wd.toNat ≤ xorout.toNat →
      exec (.make wd k ri ro poly ini xorout) s = .next { s with resp := { status := 2, value := 0 } }) ∧
  ∀ (s t : State) (k : BitVec 3) (ri ro : Bool) (poly ini xorout : Word),
    exec (.make 64 k ri ro poly ini xorout) s = .next t → t.resp.status ≠ 2

/-- Each preset creates, in any state, the engine of its row of `PRESET_ROM`, with the open default kernel (R95 to R100). -/
def Obligations.PresetsCreateTheirEngines : Prop :=
  ∀ s : State,
    (∀ P : Profile, P = ⟨16, 0x8005, 0x0000, 0x0000, true, true, Config.presetDkernel .crc16⟩ →
      exec .crc16 s = .next { s with
        profile := P, table := tableOf P, reg := 0x0000, active := P.dkernel, configured := true, resp := ⟨0, 0⟩ }) ∧
    (∀ P : Profile, P = ⟨16, 0x1021, 0xFFFF, 0x0000, false, false, Config.presetDkernel .crc16Ccitt⟩ →
      exec .crc16Ccitt s = .next { s with
        profile := P, table := tableOf P, reg := 0xFFFF, active := P.dkernel, configured := true, resp := ⟨0, 0⟩ }) ∧
    (∀ P : Profile, P = ⟨32, 0x04C11DB7, 0xFFFFFFFF, 0xFFFFFFFF, true, true, Config.presetDkernel .crc32⟩ →
      exec .crc32 s = .next { s with
        profile := P, table := tableOf P, reg := 0xFFFFFFFF, active := P.dkernel, configured := true, resp := ⟨0, 0⟩ }) ∧
    (∀ P : Profile, P = ⟨64, 0x42F0E1EBA9EA3693, 0xFFFFFFFFFFFFFFFF, 0xFFFFFFFFFFFFFFFF, true, true,
        Config.presetDkernel .crc64⟩ →
      exec .crc64 s = .next { s with
        profile := P, table := tableOf P, reg := 0xFFFFFFFFFFFFFFFF, active := P.dkernel, configured := true
        resp := ⟨0, 0⟩ }) ∧
    (∀ P : Profile, P = ⟨64, 0x000000000000001B, 0x0000000000000000, 0x0000000000000000, true, true,
        Config.presetDkernel .crc64Iso⟩ →
      exec .crc64Iso s = .next { s with
        profile := P, table := tableOf P, reg := 0, active := P.dkernel, configured := true, resp := ⟨0, 0⟩ })

/-- Each preset is exactly the MAKE of its row: the same outcome in every state (R95 to R99, R102). -/
def Obligations.PresetsAreTheMakesTheyName : Prop :=
  ∀ s : State,
    exec .crc16 s =
      exec (.make 16 (kernelNumber (Config.presetDkernel .crc16)) true true 0x8005 0x0000 0x0000) s ∧
    exec .crc16Ccitt s =
      exec (.make 16 (kernelNumber (Config.presetDkernel .crc16Ccitt)) false false 0x1021 0xFFFF 0x0000) s ∧
    exec .crc32 s =
      exec (.make 32 (kernelNumber (Config.presetDkernel .crc32)) true true 0x04C11DB7 0xFFFFFFFF 0xFFFFFFFF) s ∧
    exec .crc64 s =
      exec (.make 64 (kernelNumber (Config.presetDkernel .crc64)) true true 0x42F0E1EBA9EA3693 0xFFFFFFFFFFFFFFFF
        0xFFFFFFFFFFFFFFFF) s ∧
    exec .crc64Iso s =
      exec (.make 64 (kernelNumber (Config.presetDkernel .crc64Iso)) true true 0x000000000000001B 0x0000000000000000
        0x0000000000000000) s

/-! ### The table -/

/-- Row 0 of the table: the byte, reversed if `refin`, in the top byte of a W-bit register; eight times test the high bit,
shift left, XOR `poly` if it was set; reverse the result if `refin` (R92). Entry 0 is 0. -/
def Obligations.RowZeroAdvancesOneByte : Prop :=
  ∀ (P : Profile) (v : Byte), P.Legal →
    tableGet (tableOf P) 0 v =
      (let r := (fun r : Word =>
          if r.getLsbD (P.width - 1) then truncW P.width (r <<< 1) ^^^ P.poly else truncW P.width (r <<< 1))^[8]
        (((if P.refin then v.reverse else v).setWidth 64) <<< (P.width - 8))
      if P.refin then revW P.width r else r) ∧
    tableGet (tableOf P) 0 0 = 0

/-- Rows 1 to 31 follow the recurrence from row 0, and `T[j][i]` is what the byte kernel makes of the byte `i` and then `j`
bytes of zero, from a register of 0 (R93). -/
def Obligations.TableRowsFollowTheRecurrence : Prop :=
  ∀ (P : Profile) (T : Table) (j : Nat) (i : Byte), P.Legal → T = tableOf P → j < 32 →
    (1 ≤ j → ∀ t, t = tableGet T (j - 1) i →
      tableGet T j i =
        if P.refin then (t >>> 8) ^^^ tableGet T 0 (t.setWidth 8)
        else truncW P.width (t <<< 8) ^^^ tableGet T 0 ((t >>> (P.width - 8)).setWidth 8)) ∧
    tableGet T j i = (i :: List.replicate j 0).foldl (byteStep P T) 0

/-- The table is a function of `width`, `poly` and `refin`; the other fields do not change it (R94). -/
def Obligations.TableDependsOnWidthPolyAndReflection : Prop :=
  ∀ P Q : Profile, P.width = Q.width → P.poly = Q.poly → P.refin = Q.refin → tableOf P = tableOf Q

/-- Row 0 is linear over XOR in its index (R143 step 1). -/
def Obligations.RowZeroIsLinear : Prop :=
  ∀ (P : Profile) (a b : Byte), P.Legal →
    tableGet (tableOf P) 0 (a ^^^ b) = tableGet (tableOf P) 0 a ^^^ tableGet (tableOf P) 0 b

/-! ### RESET, DIGEST, TUNE -/

/-- RESET sets `REG` to the reflected-or-plain initial value and writes nothing else but `RESP` (R110). -/
def Obligations.ResetRestoresTheInitialRegister : Prop :=
  ∀ s : State,
    (s.configured = false → exec .reset s = .next { s with resp := ⟨3, 0⟩ }) ∧
    (s.configured = true →
      exec .reset s = .next { s with
        reg := if s.profile.refin then revW s.profile.width s.profile.init else s.profile.init
        resp := ⟨0, 0⟩ })

/-- DIGEST responds the register, reversed when the two reflection flags differ, XORed with `xorout`, and changes only `RESP`:
the four cases of R113. -/
def Obligations.DigestFinalizesWithoutMutating : Prop :=
  ∀ s : State,
    (s.configured = false → exec .digest s = .next { s with resp := ⟨3, 0⟩ }) ∧
    (s.configured = true →
      exec .digest s = .next { s with
        resp := ⟨0, match s.profile.refin, s.profile.refout with
          | false, false => s.reg ^^^ s.profile.xorout
          | false, true => revW s.profile.width s.reg ^^^ s.profile.xorout
          | true, false => revW s.profile.width s.reg ^^^ s.profile.xorout
          | true, true => s.reg ^^^ s.profile.xorout⟩ })

/-- TUNE within `TUNE_BUF_MAX` sets `ACTIVE` to some kernel, `REG` to the initial value and `RESP` to (0, 0), and writes
nothing else of the block (R150). The kernel is a free value and its counter `draws` is the model's (log 5). -/
def Obligations.TuneDrawsAKernelAndRestarts : Prop :=
  ∀ (s : State) (ds dr : Bool) (size reps : Word), s.configured = true →
    (if ds then 8191 else size.toNat) ≤ s.tuneBufMax.toNat →
      ∃ k : Kernel, exec (.tune ds dr size reps) s = .next { s with
        active := k
        reg := if s.profile.refin then revW s.profile.width s.profile.init else s.profile.init
        resp := ⟨0, 0⟩
        draws := s.draws + 1 }

/-- An omitted operand of TUNE is its default, 8191 or 128, and the operand word is then ignored (R151). That the two forms
draw the same kernel too is the model's: its free value is a function of the counter and the effective operands (log 5). -/
def Obligations.TuneDefaultsReplaceOmittedOperands : Prop :=
  ∀ (s : State) (ds dr : Bool) (size reps : Word),
    exec (.tune true dr size reps) s = exec (.tune false dr 8191 reps) s ∧
    exec (.tune ds true size reps) s = exec (.tune ds false size 128) s

/-! ### CONSUME and CONSUMEK -/

/-- CONSUME by cases: not configured; a span past 2^64; a span the platform does not admit, empty or not (log 17), which gives no
step; and otherwise `REG` is what the active kernel makes of the span, and nothing else but `RESP` is written (R111, R47). -/
def Obligations.ConsumeRunsTheActiveKernel : Prop :=
  ∀ (s : State) (addr len : Word),
    (s.configured = false → exec (.consume addr len) s = .next { s with resp := ⟨3, 0⟩ }) ∧
    (s.configured = true → 2 ^ 64 < addr.toNat + len.toNat →
      exec (.consume addr len) s = .next { s with resp := ⟨5, 0⟩ }) ∧
    (s.configured = true → addr.toNat + len.toNat ≤ 2 ^ 64 → memAdmit s.unadmitted addr len = false →
      exec (.consume addr len) s = .fault .spanNotAdmitted) ∧
    (s.configured = true → addr.toNat + len.toNat ≤ 2 ^ 64 → memAdmit s.unadmitted addr len = true →
      exec (.consume addr len) s = .next { s with
        reg := runKernel s.active s.profile s.table s.mem s.reg addr.toNat len.toNat
        resp := ⟨0, 0⟩ })

/-- Each CONSUMEK.k completes, with `REG` what its own kernel makes of the span, `ACTIVE` neither read nor written (R112). -/
def Obligations.ConsumekRunsItsOwnKernel : Prop :=
  ∀ (s : State) (addr len : Word), s.configured = true → addr.toNat + len.toNat ≤ 2 ^ 64 →
    memAdmit s.unadmitted addr len = true →
      exec (.consumekByte addr len) s = .next { s with
        reg := runKernel .byte s.profile s.table s.mem s.reg addr.toNat len.toNat, resp := ⟨0, 0⟩ } ∧
      exec (.consumek1w addr len) s = .next { s with
        reg := runKernel .w1 s.profile s.table s.mem s.reg addr.toNat len.toNat, resp := ⟨0, 0⟩ } ∧
      exec (.consumek2w addr len) s = .next { s with
        reg := runKernel .w2 s.profile s.table s.mem s.reg addr.toNat len.toNat, resp := ⟨0, 0⟩ } ∧
      exec (.consumek4w addr len) s = .next { s with
        reg := runKernel .w4 s.profile s.table s.mem s.reg addr.toNat len.toNat, resp := ⟨0, 0⟩ } ∧
      exec (.consumek8w addr len) s = .next { s with
        reg := runKernel .w8 s.profile s.table s.mem s.reg addr.toNat len.toNat, resp := ⟨0, 0⟩ }

/-- The empty span is a no-op under every consume command: no fault, `REG` unchanged, `RESP` (0, 0), whatever the address and
whatever `MEM` holds (R115); with the default `MemAdmit` always, and else where the platform admits it. An empty span it does
not admit gives no step, as any other (R47; that R47 goes before R115 there is log 17). -/
def Obligations.EmptySpansAreNoOps : Prop :=
  ∀ (s : State) (addr : Word), s.configured = true → ∀ i ∈ consumeForms addr 0,
    (s.unadmitted = [] ∨ memAdmit s.unadmitted addr 0 = true → exec i s = .next { s with resp := ⟨0, 0⟩ }) ∧
    (memAdmit s.unadmitted addr 0 = false → exec i s = .fault .spanNotAdmitted)

/-- A consume command depends on the bytes of its span and on no other byte of `MEM` (R41, R46). -/
def Obligations.ConsumeReadsOnlyItsSpan : Prop :=
  ∀ (s t : State) (m : Memory) (addr len : Word), ∀ i ∈ consumeForms addr len,
    (∀ a, addr.toNat ≤ a → a < addr.toNat + len.toNat → m.read a = s.mem.read a) →
    exec i s = .next t → exec i { s with mem := m } = .next { t with mem := m }

/-! ### Faults, responses, stops -/

/-- `NotConfigured`: every command but MAKE and the presets, on a block that is not configured, changes `RESP` only, to (3, 0);
MAKE and the presets never raise it (R164). -/
def Obligations.CommandsWithoutAnEngineFault : Prop :=
  (∀ (s : State) (addr len size reps : Word) (ds dr : Bool), s.configured = false →
    ∀ i ∈ .reset :: .digest :: .tune ds dr size reps :: consumeForms addr len,
      exec i s = .next { s with resp := ⟨3, 0⟩ }) ∧
  ∀ (s t : State) (i : Instr), i.needsEngine = false → exec i s = .next t → t.resp.status ≠ 3

/-- `SpanRange`: a consume command whose span runs past 2^64 changes `RESP` only, to (5, 0), whatever `MEM` holds; an empty span
never raises it (R166). -/
def Obligations.SpansPastTheTopFault : Prop :=
  (∀ (s : State) (addr len : Word), s.configured = true → 2 ^ 64 < addr.toNat + len.toNat →
    ∀ i ∈ consumeForms addr len, exec i s = .next { s with resp := ⟨5, 0⟩ }) ∧
  ∀ (s t : State) (addr : Word), ∀ i ∈ consumeForms addr 0, exec i s = .next t → t.resp.status ≠ 5

/-- `TuneRange`: TUNE with an effective buffer size above `TUNE_BUF_MAX` changes `RESP` only, to (6, 0); with the default
`TUNE_BUF_MAX` it is never raised (R167). -/
def Obligations.OversizedTuneBuffersFault : Prop :=
  (∀ (s : State) (ds dr : Bool) (size reps : Word), s.configured = true →
    s.tuneBufMax.toNat < (if ds then 8191 else size.toNat) →
      exec (.tune ds dr size reps) s = .next { s with resp := ⟨6, 0⟩ }) ∧
  ∀ (s t : State) (ds dr : Bool) (size reps : Word), s.tuneBufMax.toNat = 2 ^ 64 - 1 →
    exec (.tune ds dr size reps) s = .next t → t.resp.status ≠ 6

/-- A command that faults reports the first fault that applies, in the order of R168, and changes `RESP` only. -/
def Obligations.FirstFaultInOrderIsReported : Prop :=
  ∀ (i : Instr) (s : State),
    (∀ f, firstFault i s = some f → exec i s = .next { s with resp := ⟨f.code, 0⟩ }) ∧
    (∀ t, exec i s = .next t → t.resp.status ≠ 0 → ∃ f, firstFault i s = some f ∧ t = { s with resp := ⟨f.code, 0⟩ })

/-- The responses each command can end with (R73); `IllegalCommand` comes from the decoder alone. -/
def Obligations.CommandsRespondAsTheSummarySays : Prop :=
  ∀ (s t : State),
    (∀ wd k ri ro poly ini xorout, k ≤ 4 → exec (.make wd k ri ro poly ini xorout) s = .next t →
      t.resp = ⟨0, 0⟩ ∨ t.resp = ⟨1, 0⟩ ∨ t.resp = ⟨2, 0⟩) ∧
    (∀ i ∈ [Instr.crc16, .crc16Ccitt, .crc32, .crc64, .crc64Iso], exec i s = .next t → t.resp = ⟨0, 0⟩) ∧
    (exec .reset s = .next t → t.resp = ⟨0, 0⟩ ∨ t.resp = ⟨3, 0⟩) ∧
    (∀ addr len, ∀ i ∈ consumeForms addr len, exec i s = .next t →
      t.resp = ⟨0, 0⟩ ∨ t.resp = ⟨3, 0⟩ ∨ t.resp = ⟨5, 0⟩) ∧
    (exec .digest s = .next t → t.resp = ⟨0, digestOf s.profile s.reg⟩ ∨ t.resp = ⟨3, 0⟩) ∧
    (∀ ds dr size reps, exec (.tune ds dr size reps) s = .next t →
      t.resp = ⟨0, 0⟩ ∨ t.resp = ⟨3, 0⟩ ∨ t.resp = ⟨6, 0⟩)

/-- `RESP.value` after a step that takes a descriptor: a W-bit digest after a successful DIGEST, 0 after every other command
and every fault (R72). -/
def Obligations.ResponseValueIsTheDigestOrZero : Prop :=
  ∀ (s t : State), s.Inv → decode s.port ≠ .waiting → step s = .next t →
    ((∃ rest, decode s.port = .command .digest rest) ∧ t.resp.status = 0 →
      t.resp.value = digestOf s.profile s.reg ∧ t.resp.value.toNat < 2 ^ s.profile.width) ∧
    (¬ ((∃ rest, decode s.port = .command .digest rest) ∧ t.resp.status = 0) → t.resp.value = 0)

/-- The one stop: a consume command of a configured block whose span lies in the address space and is not admitted (R47; an
empty one too, log 17). No other command and no other state stops, and nothing is refused. -/
def Obligations.OnlyUnadmittedSpansStop : Prop :=
  ∀ (i : Instr) (s : State),
    (∀ r, exec i s ≠ .refused r) ∧
    ((∃ f, exec i s = .fault f) ↔
      ∃ addr len, i ∈ consumeForms addr len ∧ s.configured = true ∧ addr.toNat + len.toNat ≤ 2 ^ 64 ∧
        memAdmit s.unadmitted addr len = false)

/-- The model's form of `MemAdmit` (log 3): a span is admitted when no byte of it lies in a region the list keeps from the
block and it is in no set of spans the list refuses. -/
def Obligations.AdmittedSpansHaveNoUnreadableByte : Prop :=
  ∀ (u : List SpanSet) (addr len : Word),
    memAdmit u addr len = true ↔
      (∀ base size, SpanSet.touching base size ∈ u →
        ∀ a, addr.toNat ≤ a → a < addr.toNat + len.toNat → ¬ (base ≤ a ∧ a < base + size)) ∧
      ∀ addrLo addrHi lenLo lenHi, SpanSet.within addrLo addrHi lenLo lenHi ∈ u →
        ¬ ((addrLo ≤ addr.toNat ∧ addr.toNat ≤ addrHi) ∧ lenLo ≤ len.toNat ∧ len.toNat ≤ lenHi)

/-! ### Frames and whole-machine rules -/

/-- What the consume commands leave unchanged: everything but `REG` and `RESP` (R111, R112). -/
def Obligations.ConsumeFrame : Prop :=
  ∀ (s t : State) (addr len : Word), ∀ i ∈ consumeForms addr len, exec i s = .next t →
    t.profile = s.profile ∧ t.table = s.table ∧ t.active = s.active ∧ t.configured = s.configured ∧
    t.port = s.port ∧ (∀ a, t.mem.read a = s.mem.read a) ∧ t.unadmitted = s.unadmitted ∧
    t.tuneBufMax = s.tuneBufMax ∧ t.draws = s.draws

/-- What RESET and DIGEST leave unchanged: everything but `RESP` and, for RESET, `REG` (R110, R113). -/
def Obligations.ResetAndDigestFrame : Prop :=
  ∀ (s t : State), ∀ i ∈ [Instr.reset, .digest], exec i s = .next t →
    (i = .digest → t.reg = s.reg) ∧
    t.profile = s.profile ∧ t.table = s.table ∧ t.active = s.active ∧ t.configured = s.configured ∧
    t.port = s.port ∧ (∀ a, t.mem.read a = s.mem.read a) ∧ t.unadmitted = s.unadmitted ∧
    t.tuneBufMax = s.tuneBufMax ∧ t.draws = s.draws

/-- What TUNE leaves unchanged: everything but `ACTIVE`, `REG`, `RESP` and the model's counter `draws` (R150; log 5). -/
def Obligations.TuneFrame : Prop :=
  ∀ (s t : State) (ds dr : Bool) (size reps : Word), exec (.tune ds dr size reps) s = .next t →
    t.profile = s.profile ∧ t.table = s.table ∧ t.configured = s.configured ∧
    t.port = s.port ∧ (∀ a, t.mem.read a = s.mem.read a) ∧ t.unadmitted = s.unadmitted ∧ t.tuneBufMax = s.tuneBufMax

/-- What MAKE and the presets leave unchanged: the port, `MEM` and the platform's parameters; all else is replaced or, when the
command faults, kept (R32, R90, R91). -/
def Obligations.MakeAndPresetFrame : Prop :=
  ∀ (s t : State) (i : Instr), i.needsEngine = false → exec i s = .next t →
    t.port = s.port ∧ (∀ a, t.mem.read a = s.mem.read a) ∧ t.unadmitted = s.unadmitted ∧
    t.tuneBufMax = s.tuneBufMax ∧ t.draws = s.draws ∧
    (t.resp.status ≠ 0 →
      t.reg = s.reg ∧ t.profile = s.profile ∧ t.table = s.table ∧ t.active = s.active ∧ t.configured = s.configured)

/-- Who writes what, over a whole step (R20, R22 to R25): `PROFILE` and `T` only MAKE and the presets, `ACTIVE` only these and
TUNE, `REG` never DIGEST; `CONFIGURED` is never cleared, and only MAKE and the presets set it. -/
def Obligations.OnlyTheNamedCommandsWrite : Prop :=
  ∀ (s t : State), step s = .next t →
    (t.profile ≠ s.profile ∨ t.table ≠ s.table ∨ t.configured ≠ s.configured →
      ∃ i rest, decode s.port = .command i rest ∧ i.needsEngine = false) ∧
    (t.active ≠ s.active → ∃ i rest, decode s.port = .command i rest ∧
      (i.needsEngine = false ∨ ∃ ds dr size reps, i = .tune ds dr size reps)) ∧
    (t.reg ≠ s.reg → ∃ i rest, decode s.port = .command i rest ∧ i ≠ .digest) ∧
    (s.configured = true → t.configured = true)

/-- No step writes `MEM` (R46: "It never writes `MEM`"), nor what stands for the platform's parameters. -/
def Obligations.NoStepWritesMemory : Prop :=
  ∀ (s t : State), step s = .next t →
    (∀ a, t.mem.read a = s.mem.read a) ∧ t.unadmitted = s.unadmitted ∧ t.tuneBufMax = s.tuneBufMax

/-- The invariant of R29 (items 1 to 3) and the canonical form of `MEM` are kept by every step, from every state. -/
def Obligations.EveryStepKeepsTheEngineInvariant : Prop :=
  ∀ (s t : State), s.Inv → step s = .next t → t.Inv

/-- The state after reset has the invariant. -/
def Obligations.ResetStateHasTheEngineInvariant : Prop := State.reset.Inv

/-- The host's actions keep it too. -/
def Obligations.HostActionsKeepTheEngineInvariant : Prop :=
  ∀ (s : State) (words : List Word) (addr : Word) (v : Byte), s.Inv →
    (s.deliver words).Inv ∧ (s.hostWrite addr v).Inv ∧ s.hardwareReset.Inv

/-! ### Memory -/

/-- A 4-byte read at any address is the sum of its four bytes, the lowest address least significant (R43, R45). -/
def Obligations.WordReadsAreLittleEndian : Prop :=
  ∀ (m : Memory) (a : Nat),
    (m.readWord a).toNat =
      (m.read a).toNat + (m.read (a + 1)).toNat * 2 ^ 8 + (m.read (a + 2)).toNat * 2 ^ 16 +
        (m.read (a + 3)).toNat * 2 ^ 24

/-- A byte the host writes is what that address then reads as, and no other address changes (R40; the memory's form is the
model's, log 2). -/
def Obligations.HostWritesAreReadBack : Prop :=
  ∀ (s : State) (addr : Word) (v : Byte), s.mem.wf = true →
    ∀ a, (s.hostWrite addr v).mem.read a = if a = addr.toNat then v else s.mem.read a

/-! ### The kernels compute one function -/

/-- One block of a word kernel in byte terms: the XOR over p of `T[4n-1-p]` at the block's byte p, XORed for p below W/8 with
register byte p (low byte first when `refin`, high byte first when not), and the carry of the 1-word kernel at W = 64
(R132, R133, R138). -/
def Obligations.BlockIsTheXorOfItsTableEntries : Prop :=
  ∀ (P : Profile) (T : Table) (m : Memory) (n : Nat) (reg : Word) (ptr : Nat),
    P.Legal → reg.toNat < 2 ^ P.width → n = 1 ∨ n = 2 ∨ n = 4 ∨ n = 8 →
      foldBlock P T m n reg ptr =
        ((List.range (4 * n)).map fun p =>
          tableGet T (4 * n - 1 - p)
            (m.read (ptr + p) ^^^
              (if p < P.width / 8 then
                (if P.refin then reg.extractLsb' (8 * p) 8 else reg.extractLsb' (8 * (P.width / 8 - 1 - p)) 8)
              else 0))).foldl (· ^^^ ·)
          (if P.width = 64 ∧ n = 1 then (if P.refin then reg >>> 32 else reg <<< 32) else 0)

/-- Kernel equivalence: for every legal profile, its table, every W-bit register and every span, every kernel gives what the
byte kernel gives (R142). -/
def Obligations.KernelsAreEquivalent : Prop :=
  ∀ (k : Kernel) (P : Profile) (T : Table) (m : Memory) (reg : Word) (addr len : Nat),
    P.Legal → T = tableOf P → reg.toNat < 2 ^ P.width →
      runKernel k P T m reg addr len = runKernel .byte P T m reg addr len

/-- `ACTIVE` is unobservable: a consume command gives the same `REG` and the same response whatever kernel it names (R24). -/
def Obligations.ActiveKernelChangesNoResult : Prop :=
  ∀ (s t : State) (k : Kernel) (addr len : Word), s.Inv → ∀ i ∈ consumeForms addr len,
    exec i s = .next t → exec i { s with active := k } = .next { t with active := k }

/-- The bit-serial reference: from the initial register, any consume command over a span and then DIGEST respond what the
table-free program makes of the span's bytes (R118). -/
def Obligations.DigestEqualsTheBitSerialReference : Prop :=
  ∀ (s : State) (addr len : Word), s.Inv → s.configured = true → s.reg = initReg s.profile → s.Reads addr len →
    ∀ i ∈ consumeForms addr len, ∃ t u, exec i s = .next t ∧ exec .digest t = .next u ∧
      u.resp = ⟨0, serialDigest s.profile (s.mem.span addr.toNat len.toNat)⟩

/-- Partial feeds compose: consuming A and then B, with any two consume commands, leaves the `REG` that consuming A‖B with any
third leaves (R114). -/
def Obligations.PartialFeedsCompose : Prop :=
  ∀ (s t u v : State) (a1 n1 a2 n2 a3 n3 : Word), s.Inv → s.configured = true →
    s.mem.span a3.toNat n3.toNat = s.mem.span a1.toNat n1.toNat ++ s.mem.span a2.toNat n2.toNat →
    s.Reads a1 n1 → s.Reads a2 n2 → s.Reads a3 n3 →
    ∀ i ∈ consumeForms a1 n1, ∀ j ∈ consumeForms a2 n2, ∀ k ∈ consumeForms a3 n3,
      exec i s = .next t → exec j t = .next u → exec k s = .next v → u.reg = v.reg ∧ digestOf u.profile u.reg = digestOf v.profile v.reg

/-- The digest of the empty message: directly after a successful MAKE, preset, RESET or TUNE, DIGEST responds
`(if refout then rev_W(init) else init) XOR xorout`; the five preset values (R116). -/
def Obligations.DigestOfTheEmptyMessage : Prop :=
  (∀ (i : Instr) (s t : State), s.Inv → exec i s = .next t → t.resp.status = 0 →
    i.needsEngine = false ∨ i = .reset ∨ (∃ ds dr size reps, i = .tune ds dr size reps) →
      ∃ u, exec .digest t = .next u ∧
        u.resp = ⟨0, (if t.profile.refout then revW t.profile.width t.profile.init else t.profile.init) ^^^
          t.profile.xorout⟩) ∧
  ∀ (s : State), ∀ p ∈ [(Instr.crc16, (0 : Word)), (.crc16Ccitt, 0xFFFF), (.crc32, 0), (.crc64, 0), (.crc64Iso, 0)],
    ∃ t u, exec p.1 s = .next t ∧ exec .digest t = .next u ∧ u.resp = ⟨0, p.2⟩

/-- Reflect cancellation, as corrected: two profiles that differ only in that one reflects both ways and the other neither,
`xorout` 0. The digest of a message under the first is the reversal of the digest under the second of the message with
every byte reversed, whatever kernels run (R117). -/
def Obligations.ReflectedEnginesMirror : Prop :=
  ∀ (P Q : Profile) (m m' : Memory) (k k' : Kernel) (addr addr' len : Nat),
    P.Legal → P.refin = true → P.refout = true → P.xorout = 0 →
    Q = { P with refin := false, refout := false, dkernel := Q.dkernel } →
    (∀ i, i < len → m'.read (addr' + i) = rev8 (m.read (addr + i))) →
      digestOf P (runKernel k P (tableOf P) m (initReg P) addr len) =
        revW P.width (digestOf Q (runKernel k' Q (tableOf Q) m' (initReg Q) addr' len))

/-- Tune neutrality: TUNE, any consume command, DIGEST respond what the same consume command and DIGEST respond on a fresh
engine of the same profile (R153). -/
def Obligations.TuneChangesNoDigest : Prop :=
  ∀ (s : State) (ds dr : Bool) (size reps addr len : Word), s.Inv → s.configured = true →
    (if ds then 8191 else size.toNat) ≤ s.tuneBufMax.toNat → s.Reads addr len →
    ∀ i ∈ consumeForms addr len,
      ∃ t1 t2 t3 u1 u2 u3,
        exec (.tune ds dr size reps) s = .next t1 ∧ exec i t1 = .next t2 ∧ exec .digest t2 = .next t3 ∧
        exec (makeOf s.profile) s = .next u1 ∧ exec i u1 = .next u2 ∧ exec .digest u2 = .next u3 ∧
        t3.resp = u3.resp ∧ t3.resp.status = 0

/-! ### The platform's parameter -/

/-- `MemAdmit` is open (R8): whichever function of address and length the platform's is, some list of the model's gives it, and
the default, every span, is the list after reset. The list is the model's form (log 3). -/
def Obligations.EveryMemAdmitCanBeGiven : Prop :=
  (∀ f : Word → Word → Bool, ∃ u : List SpanSet, ∀ addr len : Word, memAdmit u addr len = f addr len) ∧
    ∀ addr len : Word, memAdmit State.reset.unadmitted addr len = true
end

