-- ==== Sys2Proof/Laws/Memory.lean ====
section
/-! SUPPORT. The memory: its canonical form is kept, and what a write changes. -/

namespace Sys2Proof.Machine

@[simp] theorem Memory.read_nil (a : Nat) : Memory.read [] a = Memory.unlisted := rfl

theorem Memory.read_cons (c : Nat) (b : Byte) (m : Memory) (a : Nat) :
    Memory.read ((c, b) :: m) a = if a = c then b else Memory.read m a := rfl

theorem Memory.wfFrom_cons {lo c : Nat} {b : Byte} {m : Memory} :
    Memory.wfFrom lo ((c, b) :: m) = true ↔
      lo ≤ c ∧ c < 2 ^ 64 ∧ b ≠ Memory.unlisted ∧ Memory.wfFrom (c + 1) m = true := by
  simp [Memory.wfFrom, and_assoc]

theorem Memory.wfFrom_mono {lo lo' : Nat} (h : lo' ≤ lo) :
    ∀ {m : Memory}, Memory.wfFrom lo m = true → Memory.wfFrom lo' m = true
  | [], _ => rfl
  | (_, _) :: _, hm => by
    rw [Memory.wfFrom_cons] at hm ⊢
    exact ⟨Nat.le_trans h hm.1, hm.2⟩

/-- Below a memory's first address nothing is listed. -/
theorem Memory.read_below {lo : Nat} : ∀ {m : Memory}, Memory.wfFrom lo m = true → ∀ {a : Nat}, a < lo →
    Memory.read m a = Memory.unlisted
  | [], _, _, _ => rfl
  | (c, b) :: m, hm, a, ha => by
    rw [Memory.wfFrom_cons] at hm
    rw [Memory.read_cons, if_neg (by omega)]
    exact Memory.read_below hm.2.2.2 (by omega)

theorem Memory.read_entry_append (a : Nat) (v : Byte) (m : Memory) (x : Nat) :
    Memory.read (Memory.entry a v ++ m) x =
      if x = a then (if v = Memory.unlisted then Memory.read m a else v) else Memory.read m x := by
  unfold Memory.entry
  split
  · split <;> simp_all
  · simp only [List.cons_append, List.nil_append, Memory.read_cons]

theorem Memory.wfFrom_entry_append {lo a : Nat} {v : Byte} {m : Memory} (hlo : lo ≤ a) (ha : a < 2 ^ 64)
    (hm : Memory.wfFrom (a + 1) m = true) : Memory.wfFrom lo (Memory.entry a v ++ m) = true := by
  unfold Memory.entry
  split
  · exact Memory.wfFrom_mono (by omega) hm
  · exact Memory.wfFrom_cons.2 ⟨hlo, ha, ‹_›, hm⟩

/-- A write keeps the canonical form. -/
theorem Memory.write_wfFrom {lo a : Nat} {v : Byte} (hlo : lo ≤ a) (ha : a < 2 ^ 64) :
    ∀ {m : Memory}, Memory.wfFrom lo m = true → Memory.wfFrom lo (m.write a v) = true
  | [], _ => by
    simpa [Memory.write] using Memory.wfFrom_entry_append (v := v) (m := []) hlo ha rfl
  | (c, b) :: m, hm => by
    have hm' := Memory.wfFrom_cons.1 hm
    unfold Memory.write
    split
    · exact Memory.wfFrom_entry_append hlo ha (Memory.wfFrom_cons.2 ⟨by omega, hm'.2⟩)
    · split
      · subst c
        exact Memory.wfFrom_entry_append hlo ha hm'.2.2.2
      · exact Memory.wfFrom_cons.2 ⟨hm'.1, hm'.2.1, hm'.2.2.1, Memory.write_wfFrom (by omega) ha hm'.2.2.2⟩

theorem Memory.write_wf {m : Memory} (h : m.wf = true) (a : Word) (v : Byte) : (m.write a.toNat v).wf = true :=
  Memory.write_wfFrom (Nat.zero_le _) a.isLt h

/-- A read after a write, at the address written and elsewhere. -/
theorem Memory.read_write_from {lo : Nat} (a : Nat) (v : Byte) (x : Nat) :
    ∀ {m : Memory}, Memory.wfFrom lo m = true → (m.write a v).read x = if x = a then v else m.read x
  | [], _ => by
    have := Memory.read_entry_append a v [] x
    simp only [List.append_nil] at this
    rw [Memory.write, this]
    by_cases hv : v = Memory.unlisted <;> simp [hv]
  | (c, b) :: m, hm => by
    have hm' := Memory.wfFrom_cons.1 hm
    unfold Memory.write
    split
    · rw [Memory.read_entry_append]
      have hb : Memory.read ((c, b) :: m) a = Memory.unlisted :=
        Memory.read_below (lo := a + 1) (Memory.wfFrom_cons.2 ⟨by omega, hm'.2⟩) (by omega)
      by_cases hv : v = Memory.unlisted <;> simp [hv, hb]
    · split
      · subst c
        rw [Memory.read_entry_append, Memory.read_cons]
        have hb : Memory.read m a = Memory.unlisted := Memory.read_below hm'.2.2.2 (by omega)
        by_cases hv : v = Memory.unlisted <;> by_cases hx : x = a <;> simp [hv, hb, hx]
      · rw [Memory.read_cons, Memory.read_cons, Memory.read_write_from a v x hm'.2.2.2]
        by_cases hx : x = c
        · have hca : c ≠ a := by omega
          simp [hx, hca]
        · simp [hx]

theorem Memory.read_write {m : Memory} (h : m.wf = true) (a : Nat) (v : Byte) (x : Nat) :
    (m.write a v).read x = if x = a then v else m.read x :=
  Memory.read_write_from a v x h

/-! ### Spans -/

/-- Filling `MEM` writes `MEM` alone. -/
theorem State.hostFill_eq : ∀ (bytes : List Byte) (s : State) (addr : Word),
    s.hostFill addr bytes = { s with mem := (s.hostFill addr bytes).mem }
  | [], _, _ => rfl
  | v :: rest, s, addr => by
    unfold State.hostFill
    split
    · rfl
    · rw [State.hostFill_eq rest]; rfl

/-- Filling `MEM` keeps its canonical form. -/
theorem State.hostFill_wf : ∀ (bytes : List Byte) (s : State) (addr : Word), s.mem.wf = true →
    (s.hostFill addr bytes).mem.wf = true
  | [], _, _, h => h
  | v :: rest, s, addr, h => by
    have hw : (s.hostWrite addr v).mem.wf = true := Memory.write_wf h addr v
    unfold State.hostFill
    split
    · exact hw
    · exact State.hostFill_wf rest _ _ hw

@[simp] theorem Memory.span_length (m : Memory) : ∀ (n a : Nat), (m.span a n).length = n
  | 0, _ => rfl
  | n + 1, a => by simp [Memory.span, Memory.span_length m n (a + 1)]

/-- The span of a sum of lengths is the two spans in a row. -/
theorem Memory.span_append (m : Memory) : ∀ (n n' a : Nat), m.span a (n + n') = m.span a n ++ m.span (a + n) n'
  | 0, n', a => by simp [Memory.span]
  | n + 1, n', a => by
    rw [Nat.succ_add, Memory.span, Memory.span, Memory.span_append m n n' (a + 1)]
    simp [Nat.add_comm, Nat.add_left_comm]

/-- Memories that agree on a span have the same span. -/
theorem Memory.span_congr {m m' : Memory} : ∀ {n a : Nat}, (∀ i, i < n → m.read (a + i) = m'.read (a + i)) →
    m.span a n = m'.span a n
  | 0, _, _ => rfl
  | n + 1, a, h => by
    have h0 := h 0 (by omega)
    have := Memory.span_congr (n := n) (a := a + 1) fun i hi => by
      simpa [Nat.add_comm, Nat.add_left_comm] using h (i + 1) (by omega)
    simp_all [Memory.span]

end Sys2Proof.Machine
end

