-- ==== Sys2Proof/Laws/Words.lean ====
section
/-! SUPPORT. Bits and bounds of the operators on W-bit values. -/

namespace Sys2Proof.Machine

/-! ### Bit by bit -/

theorem getLsbD_truncW (w : Nat) (a : Word) (i : Nat) :
    (truncW w a).getLsbD i = (decide (i < w) && a.getLsbD i) := by
  rcases Nat.lt_or_ge i 64 with h | h
  · simp [truncW, h]
  · simp [truncW, BitVec.getLsbD_of_ge, h]

theorem getLsbD_shlW (w : Nat) (a : Word) (s i : Nat) :
    (shlW w a s).getLsbD i = (decide (i < w) && (decide (i < 64) && !decide (i < s) && a.getLsbD (i - s))) := by
  simp [shlW, getLsbD_truncW]

theorem getLsbD_revW (w : Nat) (a : Word) (i : Nat) :
    (revW w a).getLsbD i = (decide (i < 64) && decide (i < w) && a.getLsbD (w - 1 - i)) := by
  rw [revW, BitVec.getLsbD_setWidth, BitVec.getLsbD_reverse, BitVec.getMsbD_eq_getLsbD, BitVec.getLsbD_setWidth]
  by_cases h : i < w
  · have h' : w - 1 - i < w := by omega
    simp [h, h']
  · simp [h]

/-! ### Values below 2^W -/

/-- A value is below 2^W when no bit from W up is set. -/
theorem lt_two_pow_iff {w : Nat} {a : Word} : a.toNat < 2 ^ w ↔ ∀ i, w ≤ i → a.getLsbD i = false := by
  constructor
  · intro h i hi
    exact Nat.testBit_eq_false_of_lt (Nat.lt_of_lt_of_le h (Nat.pow_le_pow_right (by decide) hi))
  · intro h
    exact Nat.lt_pow_two_of_testBit _ fun i hi => by simpa [BitVec.getLsbD] using h i hi

/-- The model's test of an operand is the comparison with 2^W. -/
theorem fitsWidth_iff {w : Nat} {a : Word} : fitsWidth w a = true ↔ a.toNat < 2 ^ w := by
  rw [fitsWidth, beq_iff_eq, ← BitVec.toNat_inj]
  simp [BitVec.toNat_ushiftRight, Nat.shiftRight_eq_div_pow, Nat.div_eq_zero_iff]

theorem isWidth_iff {w : Nat} : isWidth w = true ↔ w = 16 ∨ w = 32 ∨ w = 64 := by
  simp [isWidth, or_assoc]

theorem truncW_lt (w : Nat) (a : Word) : (truncW w a).toNat < 2 ^ w :=
  lt_two_pow_iff.2 fun i hi => by simp [getLsbD_truncW, Nat.not_lt.2 hi]

theorem shlW_lt (w : Nat) (a : Word) (s : Nat) : (shlW w a s).toNat < 2 ^ w := truncW_lt w _

theorem revW_lt (w : Nat) (a : Word) : (revW w a).toNat < 2 ^ w :=
  lt_two_pow_iff.2 fun i hi => by simp [getLsbD_revW, Nat.not_lt.2 hi]

theorem xor_lt {w : Nat} {a b : Word} (ha : a.toNat < 2 ^ w) (hb : b.toNat < 2 ^ w) : (a ^^^ b).toNat < 2 ^ w :=
  lt_two_pow_iff.2 fun i hi => by simp [lt_two_pow_iff.1 ha i hi, lt_two_pow_iff.1 hb i hi]

theorem ushiftRight_lt {w : Nat} {a : Word} (ha : a.toNat < 2 ^ w) (s : Nat) : (a >>> s).toNat < 2 ^ w :=
  lt_two_pow_iff.2 fun i hi => by simpa using lt_two_pow_iff.1 ha (s + i) (by omega)

theorem zero_lt_two_pow (w : Nat) : (0 : Word).toNat < 2 ^ w := by simp

/-- Truncation leaves a W-bit value as it is. -/
theorem truncW_of_lt {w : Nat} {a : Word} (ha : a.toNat < 2 ^ w) : truncW w a = a := by
  refine BitVec.eq_of_getLsbD_eq fun i _ => ?_
  rw [getLsbD_truncW]
  by_cases h : i < w
  · simp [h]
  · simp [h, lt_two_pow_iff.1 ha i (by omega)]

/-- Reversing twice leaves a W-bit value as it is. -/
theorem revW_revW {w : Nat} (hw : w ≤ 64) {a : Word} (ha : a.toNat < 2 ^ w) : revW w (revW w a) = a := by
  refine BitVec.eq_of_getLsbD_eq fun i hi => ?_
  rw [getLsbD_revW, getLsbD_revW]
  by_cases h : i < w
  · have : w - 1 - i < 64 := by omega
    have : w - 1 - i < w := by omega
    have : w - 1 - (w - 1 - i) = i := by omega
    simp_all
  · simp [h, lt_two_pow_iff.1 ha i (by omega)]

/-! ### Linearity over XOR -/

theorem truncW_xor (w : Nat) (a b : Word) : truncW w (a ^^^ b) = truncW w a ^^^ truncW w b := by
  refine BitVec.eq_of_getLsbD_eq fun i _ => ?_
  simp only [getLsbD_truncW, BitVec.getLsbD_xor]
  cases decide (i < w) <;> simp

theorem shlW_xor (w : Nat) (a b : Word) (s : Nat) : shlW w (a ^^^ b) s = shlW w a s ^^^ shlW w b s := by
  rw [shlW, BitVec.shiftLeft_xor_distrib, truncW_xor]
  rfl

theorem revW_xor (w : Nat) (a b : Word) : revW w (a ^^^ b) = revW w a ^^^ revW w b := by
  refine BitVec.eq_of_getLsbD_eq fun i _ => ?_
  simp only [getLsbD_revW, BitVec.getLsbD_xor]
  cases decide (i < 64) <;> cases decide (i < w) <;> simp

end Sys2Proof.Machine
end

