-- ==== Sys2Proof/Laws/Table.lean ====
section
/-! SUPPORT. Reading the table that MAKE builds. -/

namespace Sys2Proof.Machine

@[simp] theorem vectorOf_getElem {α : Type} {n : Nat} (f : Fin n → α) (i : Nat) (h : i < n) :
    (vectorOf f)[i] = f ⟨i, h⟩ := by
  simp [vectorOf]

@[simp] theorem rowZero_getElem (P : Profile) (v : Byte) : (rowZero P)[v.toNat]'v.isLt = rowZeroEntry P v := by
  simp only [rowZero, vectorOf_getElem]
  rfl

/-- An entry read back from the table, row by row. -/
theorem tableGet_tableOf (P : Profile) {j : Nat} (hj : j < 32) (i : Byte) :
    tableGet (tableOf P) j i = tableEntry P (rowZero P) j i := by
  simp only [tableGet, hj, tableOf, dif_pos, vectorOf_getElem]
  rfl

/-- Row 0 of the table (R92). -/
theorem tableGet_rowZero (P : Profile) (i : Byte) : tableGet (tableOf P) 0 i = rowZeroEntry P i := by
  rw [tableGet_tableOf P (by decide), tableEntry, rowZero_getElem]

theorem nextEntry_rowZero (P : Profile) (t : Word) :
    nextEntry P (rowZero P) t =
      if P.refin then (t >>> 8) ^^^ rowZeroEntry P (lowByte t)
      else shlW P.width t 8 ^^^ rowZeroEntry P (lowByte (t >>> (P.width - 8))) := by
  unfold nextEntry
  simp only [rowZero_getElem]

/-- The rows from 1 up (R93). -/
theorem tableGet_succ (P : Profile) {j : Nat} (hj : j + 1 < 32) (i : Byte) :
    tableGet (tableOf P) (j + 1) i = nextEntry P (rowZero P) (tableGet (tableOf P) j i) := by
  rw [tableGet_tableOf P hj, tableGet_tableOf P (by omega), tableEntry]

/-! ### Bounds -/

theorem bitStep_lt {P : Profile} (hp : P.poly.toNat < 2 ^ P.width) (r : Word) : (bitStep P r).toNat < 2 ^ P.width := by
  unfold bitStep
  split
  · exact xor_lt (shlW_lt _ _ _) hp
  · exact shlW_lt _ _ _

theorem bitSteps_lt {P : Profile} (hp : P.poly.toNat < 2 ^ P.width) :
    ∀ (n : Nat) {r : Word}, r.toNat < 2 ^ P.width → (bitSteps P n r).toNat < 2 ^ P.width
  | 0, _, h => h
  | n + 1, _, _ => bitSteps_lt hp n (bitStep_lt hp _)

theorem topByte_lt (P : Profile) (v : Byte) : (topByte P v).toNat < 2 ^ P.width := shlW_lt _ _ _

theorem rowZeroEntry_lt {P : Profile} (hp : P.poly.toNat < 2 ^ P.width) (v : Byte) :
    (rowZeroEntry P v).toNat < 2 ^ P.width := by
  simp only [rowZeroEntry]
  split
  · exact revW_lt _ _
  · exact bitSteps_lt hp 8 (topByte_lt P v)

theorem tableEntry_lt {P : Profile} (hp : P.poly.toNat < 2 ^ P.width) (i : Byte) :
    ∀ j, (tableEntry P (rowZero P) j i).toNat < 2 ^ P.width
  | 0 => by
    rw [tableEntry, rowZero_getElem]
    exact rowZeroEntry_lt hp i
  | j + 1 => by
    rw [tableEntry, nextEntry_rowZero]
    split
    · exact xor_lt (ushiftRight_lt (tableEntry_lt hp i j) 8) (rowZeroEntry_lt hp _)
    · exact xor_lt (shlW_lt _ _ _) (rowZeroEntry_lt hp _)

/-- Every entry the table's reads give is a W-bit value. -/
theorem tableGet_lt {P : Profile} (hp : P.poly.toNat < 2 ^ P.width) (j : Nat) (i : Byte) :
    (tableGet (tableOf P) j i).toNat < 2 ^ P.width := by
  by_cases hj : j < 32
  · rw [tableGet_tableOf P hj]
    exact tableEntry_lt hp i j
  · simp [tableGet, hj]

theorem initReg_lt {P : Profile} (hi : P.init.toNat < 2 ^ P.width) : (initReg P).toNat < 2 ^ P.width := by
  unfold initReg
  split
  · exact revW_lt _ _
  · exact hi

end Sys2Proof.Machine
end

