-- ==== Sys2Proof/Laws/Kernels.lean ====
section
/-! SUPPORT. The kernels: the byte kernel is a left fold over the span, and every kernel gives a W-bit register. -/

namespace Sys2Proof.Machine

theorem byteKernel_eq_foldl (P : Profile) (T : Table) (m : Memory) :
    ∀ (len : Nat) (reg : Word) (addr : Nat),
      byteKernel P T m reg addr len = (m.span addr len).foldl (byteStep P T) reg
  | 0, _, _ => rfl
  | len + 1, reg, addr => by
    rw [byteKernel, Memory.span, List.foldl_cons, byteKernel_eq_foldl P T m len]

/-- The byte kernel over a sum of lengths is the byte kernel twice. -/
theorem byteKernel_add (P : Profile) (T : Table) (m : Memory) (reg : Word) (addr n n' : Nat) :
    byteKernel P T m reg addr (n + n') = byteKernel P T m (byteKernel P T m reg addr n) (addr + n) n' := by
  simp only [byteKernel_eq_foldl, Memory.span_append, List.foldl_append]

@[simp] theorem blockWords_length (m : Memory) : ∀ (n ptr : Nat), (blockWords m ptr n).length = n
  | 0, _ => rfl
  | n + 1, ptr => by simp [blockWords, blockWords_length m n]

/-- The empty span leaves the register as it is, under every kernel (R115). -/
theorem runKernel_zero (k : Kernel) (P : Profile) (T : Table) (m : Memory) (reg : Word) (addr : Nat) :
    runKernel k P T m reg addr 0 = reg := by
  cases k <;> simp [runKernel, wordKernel, byteKernel, foldBlocks]

/-! ### Bounds -/

variable {P : Profile} (hp : P.poly.toNat < 2 ^ P.width)
include hp

theorem byteStep_lt {reg : Word} (hr : reg.toNat < 2 ^ P.width) (v : Byte) :
    (byteStep P (tableOf P) reg v).toNat < 2 ^ P.width := by
  unfold byteStep
  split
  · exact xor_lt (ushiftRight_lt hr 8) (tableGet_lt hp _ _)
  · exact xor_lt (shlW_lt _ _ _) (tableGet_lt hp _ _)

theorem byteKernel_lt (m : Memory) : ∀ (len : Nat) {reg : Word} (addr : Nat), reg.toNat < 2 ^ P.width →
    (byteKernel P (tableOf P) m reg addr len).toNat < 2 ^ P.width
  | 0, _, _, hr => hr
  | len + 1, _, addr, hr => byteKernel_lt m len (addr + 1) (byteStep_lt hp hr _)

theorem foldWords_lt : ∀ ws : List HalfWord, (foldWords (tableOf P) ws).toNat < 2 ^ P.width
  | [] => zero_lt_two_pow _
  | w :: ws => by
    have h := foldWords_lt ws
    simp only [foldWords]
    exact xor_lt (xor_lt (xor_lt (xor_lt (tableGet_lt hp _ _) (tableGet_lt hp _ _)) (tableGet_lt hp _ _))
      (tableGet_lt hp _ _)) h

omit hp in
theorem carry_lt (n : Nat) {reg : Word} (hr : reg.toNat < 2 ^ P.width) : (carry P n reg).toNat < 2 ^ P.width := by
  unfold carry
  split
  · rename_i h
    split
    · exact ushiftRight_lt hr 32
    · rw [h.1]
      exact shlW_lt _ _ _
  · exact zero_lt_two_pow _

theorem foldBlocks_lt (m : Memory) (n : Nat) : ∀ (blocks : Nat) {reg : Word} (ptr : Nat), reg.toNat < 2 ^ P.width →
    (foldBlocks P (tableOf P) m n reg ptr blocks).toNat < 2 ^ P.width
  | 0, _, _, hr => hr
  | blocks + 1, _, ptr, hr =>
    foldBlocks_lt m n blocks (ptr + 4 * n) (xor_lt (carry_lt n hr) (foldWords_lt hp _))

theorem wordKernel_lt (n : Nat) (m : Memory) {reg : Word} (hr : reg.toNat < 2 ^ P.width) (addr len : Nat) :
    (wordKernel n P (tableOf P) m reg addr len).toNat < 2 ^ P.width :=
  byteKernel_lt hp m _ _ (foldBlocks_lt hp m n _ _ hr)

/-- Every kernel leaves a W-bit register. -/
theorem runKernel_lt (k : Kernel) (m : Memory) {reg : Word} (hr : reg.toNat < 2 ^ P.width) (addr len : Nat) :
    (runKernel k P (tableOf P) m reg addr len).toNat < 2 ^ P.width := by
  cases k
  · exact byteKernel_lt hp m _ _ hr
  all_goals exact wordKernel_lt hp _ m hr _ _

end Sys2Proof.Machine
end

