-- ==== Sys2Proof/Laws/State.lean ====
section
/-! SUPPORT. What each update of the state leaves in each field. -/

namespace Sys2Proof.Machine

variable (s : State)

@[simp] theorem State.respond_reg (v : Word) : (s.respond v).reg = s.reg := rfl
@[simp] theorem State.respond_profile (v : Word) : (s.respond v).profile = s.profile := rfl
@[simp] theorem State.respond_table (v : Word) : (s.respond v).table = s.table := rfl
@[simp] theorem State.respond_active (v : Word) : (s.respond v).active = s.active := rfl
@[simp] theorem State.respond_configured (v : Word) : (s.respond v).configured = s.configured := rfl
@[simp] theorem State.respond_resp (v : Word) : (s.respond v).resp = .ok v := rfl
@[simp] theorem State.respond_port (v : Word) : (s.respond v).port = s.port := rfl
@[simp] theorem State.respond_mem (v : Word) : (s.respond v).mem = s.mem := rfl
@[simp] theorem State.respond_unadmitted (v : Word) : (s.respond v).unadmitted = s.unadmitted := rfl
@[simp] theorem State.respond_tuneBufMax (v : Word) : (s.respond v).tuneBufMax = s.tuneBufMax := rfl
@[simp] theorem State.respond_draws (v : Word) : (s.respond v).draws = s.draws := rfl

@[simp] theorem State.raise_reg (f : CmdFault) : (s.raise f).reg = s.reg := rfl
@[simp] theorem State.raise_profile (f : CmdFault) : (s.raise f).profile = s.profile := rfl
@[simp] theorem State.raise_table (f : CmdFault) : (s.raise f).table = s.table := rfl
@[simp] theorem State.raise_active (f : CmdFault) : (s.raise f).active = s.active := rfl
@[simp] theorem State.raise_configured (f : CmdFault) : (s.raise f).configured = s.configured := rfl
@[simp] theorem State.raise_resp (f : CmdFault) : (s.raise f).resp = .fault f := rfl
@[simp] theorem State.raise_port (f : CmdFault) : (s.raise f).port = s.port := rfl
@[simp] theorem State.raise_mem (f : CmdFault) : (s.raise f).mem = s.mem := rfl
@[simp] theorem State.raise_unadmitted (f : CmdFault) : (s.raise f).unadmitted = s.unadmitted := rfl
@[simp] theorem State.raise_tuneBufMax (f : CmdFault) : (s.raise f).tuneBufMax = s.tuneBufMax := rfl
@[simp] theorem State.raise_draws (f : CmdFault) : (s.raise f).draws = s.draws := rfl

@[simp] theorem State.create_reg (P : Profile) : (s.create P).reg = initReg P := rfl
@[simp] theorem State.create_profile (P : Profile) : (s.create P).profile = P := rfl
@[simp] theorem State.create_table (P : Profile) : (s.create P).table = tableOf P := rfl
@[simp] theorem State.create_active (P : Profile) : (s.create P).active = P.dkernel := rfl
@[simp] theorem State.create_configured (P : Profile) : (s.create P).configured = true := rfl
@[simp] theorem State.create_resp (P : Profile) : (s.create P).resp = .ok 0 := rfl
@[simp] theorem State.create_port (P : Profile) : (s.create P).port = s.port := rfl
@[simp] theorem State.create_mem (P : Profile) : (s.create P).mem = s.mem := rfl
@[simp] theorem State.create_unadmitted (P : Profile) : (s.create P).unadmitted = s.unadmitted := rfl
@[simp] theorem State.create_tuneBufMax (P : Profile) : (s.create P).tuneBufMax = s.tuneBufMax := rfl
@[simp] theorem State.create_draws (P : Profile) : (s.create P).draws = s.draws := rfl

@[simp] theorem State.takeDescriptor_reg (rest : List Word) : (s.takeDescriptor rest).reg = s.reg := rfl
@[simp] theorem State.takeDescriptor_profile (rest : List Word) : (s.takeDescriptor rest).profile = s.profile := rfl
@[simp] theorem State.takeDescriptor_table (rest : List Word) : (s.takeDescriptor rest).table = s.table := rfl
@[simp] theorem State.takeDescriptor_active (rest : List Word) : (s.takeDescriptor rest).active = s.active := rfl
@[simp] theorem State.takeDescriptor_configured (rest : List Word) : (s.takeDescriptor rest).configured = s.configured := rfl
@[simp] theorem State.takeDescriptor_resp (rest : List Word) : (s.takeDescriptor rest).resp = s.resp := rfl
@[simp] theorem State.takeDescriptor_port (rest : List Word) : (s.takeDescriptor rest).port = rest := rfl
@[simp] theorem State.takeDescriptor_mem (rest : List Word) : (s.takeDescriptor rest).mem = s.mem := rfl
@[simp] theorem State.takeDescriptor_unadmitted (rest : List Word) : (s.takeDescriptor rest).unadmitted = s.unadmitted := rfl
@[simp] theorem State.takeDescriptor_tuneBufMax (rest : List Word) : (s.takeDescriptor rest).tuneBufMax = s.tuneBufMax := rfl
@[simp] theorem State.takeDescriptor_draws (rest : List Word) : (s.takeDescriptor rest).draws = s.draws := rfl

@[simp] theorem State.deliver_reg (ws : List Word) : (s.deliver ws).reg = s.reg := rfl
@[simp] theorem State.deliver_profile (ws : List Word) : (s.deliver ws).profile = s.profile := rfl
@[simp] theorem State.deliver_table (ws : List Word) : (s.deliver ws).table = s.table := rfl
@[simp] theorem State.deliver_active (ws : List Word) : (s.deliver ws).active = s.active := rfl
@[simp] theorem State.deliver_configured (ws : List Word) : (s.deliver ws).configured = s.configured := rfl
@[simp] theorem State.deliver_resp (ws : List Word) : (s.deliver ws).resp = s.resp := rfl
@[simp] theorem State.deliver_port (ws : List Word) : (s.deliver ws).port = s.port ++ ws := rfl
@[simp] theorem State.deliver_mem (ws : List Word) : (s.deliver ws).mem = s.mem := rfl
@[simp] theorem State.deliver_unadmitted (ws : List Word) : (s.deliver ws).unadmitted = s.unadmitted := rfl
@[simp] theorem State.deliver_tuneBufMax (ws : List Word) : (s.deliver ws).tuneBufMax = s.tuneBufMax := rfl
@[simp] theorem State.deliver_draws (ws : List Word) : (s.deliver ws).draws = s.draws := rfl

@[simp] theorem State.hostWrite_reg (a : Word) (v : Byte) : (s.hostWrite a v).reg = s.reg := rfl
@[simp] theorem State.hostWrite_profile (a : Word) (v : Byte) : (s.hostWrite a v).profile = s.profile := rfl
@[simp] theorem State.hostWrite_table (a : Word) (v : Byte) : (s.hostWrite a v).table = s.table := rfl
@[simp] theorem State.hostWrite_active (a : Word) (v : Byte) : (s.hostWrite a v).active = s.active := rfl
@[simp] theorem State.hostWrite_configured (a : Word) (v : Byte) : (s.hostWrite a v).configured = s.configured := rfl
@[simp] theorem State.hostWrite_resp (a : Word) (v : Byte) : (s.hostWrite a v).resp = s.resp := rfl
@[simp] theorem State.hostWrite_port (a : Word) (v : Byte) : (s.hostWrite a v).port = s.port := rfl
@[simp] theorem State.hostWrite_mem (a : Word) (v : Byte) : (s.hostWrite a v).mem = s.mem.write a.toNat v := rfl
@[simp] theorem State.hostWrite_unadmitted (a : Word) (v : Byte) : (s.hostWrite a v).unadmitted = s.unadmitted := rfl
@[simp] theorem State.hostWrite_tuneBufMax (a : Word) (v : Byte) : (s.hostWrite a v).tuneBufMax = s.tuneBufMax := rfl
@[simp] theorem State.hostWrite_draws (a : Word) (v : Byte) : (s.hostWrite a v).draws = s.draws := rfl

@[simp] theorem State.withFetchWord_reg (n w : Nat) : (s.withFetchWord n w).reg = s.reg := rfl
@[simp] theorem State.withFetchWord_profile (n w : Nat) : (s.withFetchWord n w).profile = s.profile := rfl
@[simp] theorem State.withFetchWord_table (n w : Nat) : (s.withFetchWord n w).table = s.table := rfl
@[simp] theorem State.withFetchWord_active (n w : Nat) : (s.withFetchWord n w).active = s.active := rfl
@[simp] theorem State.withFetchWord_configured (n w : Nat) : (s.withFetchWord n w).configured = s.configured := rfl
@[simp] theorem State.withFetchWord_resp (n w : Nat) : (s.withFetchWord n w).resp = s.resp := rfl
@[simp] theorem State.withFetchWord_port (n w : Nat) : (s.withFetchWord n w).port = descriptorOfBits n w ++ s.port := rfl
@[simp] theorem State.withFetchWord_mem (n w : Nat) : (s.withFetchWord n w).mem = s.mem := rfl
@[simp] theorem State.withFetchWord_unadmitted (n w : Nat) : (s.withFetchWord n w).unadmitted = s.unadmitted := rfl
@[simp] theorem State.withFetchWord_tuneBufMax (n w : Nat) : (s.withFetchWord n w).tuneBufMax = s.tuneBufMax := rfl
@[simp] theorem State.withFetchWord_draws (n w : Nat) : (s.withFetchWord n w).draws = s.draws := rfl

@[simp] theorem State.hardwareReset_reg : (s.hardwareReset).reg = 0 := rfl
@[simp] theorem State.hardwareReset_profile : (s.hardwareReset).profile = .reset := rfl
@[simp] theorem State.hardwareReset_table : (s.hardwareReset).table = State.reset.table := rfl
@[simp] theorem State.hardwareReset_active : (s.hardwareReset).active = .byte := rfl
@[simp] theorem State.hardwareReset_configured : (s.hardwareReset).configured = false := rfl
@[simp] theorem State.hardwareReset_resp : (s.hardwareReset).resp = .ok 0 := rfl
@[simp] theorem State.hardwareReset_port : (s.hardwareReset).port = [] := rfl
@[simp] theorem State.hardwareReset_mem : (s.hardwareReset).mem = s.mem := rfl
@[simp] theorem State.hardwareReset_unadmitted : (s.hardwareReset).unadmitted = s.unadmitted := rfl
@[simp] theorem State.hardwareReset_tuneBufMax : (s.hardwareReset).tuneBufMax = s.tuneBufMax := rfl
@[simp] theorem State.hardwareReset_draws : (s.hardwareReset).draws = s.draws := rfl

@[simp] theorem Resp.ok_status (v : Word) : (Resp.ok v).status = 0 := rfl
@[simp] theorem Resp.ok_value (v : Word) : (Resp.ok v).value = v := rfl
@[simp] theorem Resp.fault_status (f : CmdFault) : (Resp.fault f).status = f.code := rfl
@[simp] theorem Resp.fault_value (f : CmdFault) : (Resp.fault f).value = 0 := rfl

/-- Every fault has a code other than success. -/
theorem CmdFault.code_ne_zero (f : CmdFault) : f.code ≠ 0 := by cases f <;> decide

/-- Two faults have two codes. -/
theorem CmdFault.code_injective {f g : CmdFault} (h : f.code = g.code) : f = g := by
  cases f <;> cases g <;> first | rfl | exact absurd h (by decide)

end Sys2Proof.Machine
end

