-- ==== Sys2Proof/Laws/Exec.lean ====
section
/-! SUPPORT. What each meaning, each command and each step can do, said once; later proofs cite these and do not unfold. -/

namespace Sys2Proof.Machine

/-- What a command that does not fault does to the state: one constructor a group of commands. -/
inductive Effect : Instr → State → State → Prop where
  | created {i : Instr} {s : State} {P : Profile} (he : i.needsEngine = false) (hP : P.Legal) :
      Effect i s (s.create P)
  | restarted {s : State} (hc : s.configured = true) :
      Effect .reset s ({ s with reg := initReg s.profile }.respond 0)
  | consumed {i : Instr} {s : State} {addr len : Word} (k : Kernel) (hi : i ∈ consumeForms addr len)
      (hc : s.configured = true) (hr : s.Reads addr len) :
      Effect i s
        ({ s with reg := runKernel k s.profile s.table s.mem s.reg addr.toNat len.toNat }.respond 0)
  | digested {s : State} (hc : s.configured = true) :
      Effect .digest s (s.respond (digestOf s.profile s.reg))
  | tuned {s : State} (ds dr : Bool) (size reps : Word) (hc : s.configured = true)
      (hb : tuneSize ds size ≤ s.tuneBufMax) :
      Effect (.tune ds dr size reps) s
        ({ s with
          active := Config.tuneDraw s.draws (tuneSize ds size) (tuneReps dr reps)
          reg := initReg s.profile
          draws := s.draws + 1 }.respond 0)

/-- A command ends by a fault or has its effect. -/
def Ends (i : Instr) (s t : State) : Prop := (∃ f, t = s.raise f) ∨ Effect i s t

/-! ### The shared operations -/

theorem legal_iff {P : Profile} :
    (isWidth P.width = true ∧ fitsWidth P.width P.poly = true ∧ fitsWidth P.width P.init = true ∧
      fitsWidth P.width P.xorout = true) ↔ P.Legal := by
  simp only [isWidth_iff, fitsWidth_iff, Profile.Legal]

/-- MAKE and the presets: a fault, or the engine of a legal profile. -/
theorem makeEngine_next {P : Profile} {s t : State} (h : makeEngine P s = .next t) :
    (∃ f, t = s.raise f) ∨ (P.Legal ∧ t = s.create P) := by
  unfold makeEngine at h
  split at h
  · cases h; exact .inl ⟨_, rfl⟩
  · split at h
    · cases h; exact .inl ⟨_, rfl⟩
    · cases h
      exact .inr ⟨legal_iff.1 (by simp_all), rfl⟩

/-- A legal profile creates its engine. -/
theorem makeEngine_of_legal {P : Profile} (h : P.Legal) (s : State) : makeEngine P s = .next (s.create P) := by
  obtain ⟨h1, h2, h3, h4⟩ := legal_iff.2 h
  simp [makeEngine, h1, h2, h3, h4]

theorem presetProfile_legal (p : Preset) : (presetProfile p).Legal := by
  cases p <;> simp [presetProfile, Profile.Legal]

theorem spanInRange_iff {addr len : Word} : spanInRange addr len = true ↔ addr.toNat + len.toNat ≤ 2 ^ 64 := by
  simp [spanInRange]

/-- The consume wrapper on a block with no engine. -/
theorem consumeWith_of_not_configured {k : Kernel} {addr len : Word} {s : State} (hc : s.configured = false) :
    consumeWith k addr len s = .next (s.raise .notConfigured) := by
  simp [consumeWith, hc]

/-- The consume wrapper over a span past the top. -/
theorem consumeWith_of_past_top {k : Kernel} {addr len : Word} {s : State} (hc : s.configured = true)
    (hr : 2 ^ 64 < addr.toNat + len.toNat) : consumeWith k addr len s = .next (s.raise .spanRange) := by
  have h : spanInRange addr len = false := by simpa [spanInRange] using hr
  simp [consumeWith, hc, h]

/-- The consume wrapper, where it stops. -/
theorem consumeWith_of_unadmitted {k : Kernel} {addr len : Word} {s : State} (hc : s.configured = true)
    (hr : addr.toNat + len.toNat ≤ 2 ^ 64) (ha : memAdmit s.unadmitted addr len = false) :
    consumeWith k addr len s = .fault .spanNotAdmitted := by
  simp [consumeWith, hc, spanInRange_iff.2 hr, ha]

/-- The consume wrapper: a fault, or the kernel over a span it may read. -/
theorem consumeWith_next {k : Kernel} {addr len : Word} {s t : State} (h : consumeWith k addr len s = .next t) :
    (∃ f, t = s.raise f) ∨ (s.configured = true ∧ s.Reads addr len ∧
      t = { s with reg := runKernel k s.profile s.table s.mem s.reg addr.toNat len.toNat }.respond 0) := by
  unfold consumeWith at h
  split at h
  · cases h; exact .inl ⟨_, rfl⟩
  · split at h
    · cases h; exact .inl ⟨_, rfl⟩
    · split at h
      · cases h
      · cases h
        exact .inr ⟨by simp_all, ⟨spanInRange_iff.1 (by simp_all), by simp_all⟩, rfl⟩

/-- The consume wrapper, where it completes. -/
theorem consumeWith_of_reads {k : Kernel} {addr len : Word} {s : State} (hc : s.configured = true)
    (hr : s.Reads addr len) :
    consumeWith k addr len s =
      .next ({ s with reg := runKernel k s.profile s.table s.mem s.reg addr.toNat len.toNat }.respond 0) := by
  simp [consumeWith, hc, spanInRange_iff.2 hr.1, hr.2]

/-- The consume wrapper as one equation: its fault by R168's order, the stop, or the kernel. -/
theorem consumeWith_eq (k : Kernel) (addr len : Word) (s : State) :
    consumeWith k addr len s =
      match withEngine s (spanFault addr len) with
      | some f => .next (s.raise f)
      | none =>
        if memAdmit s.unadmitted addr len then
          .next ({ s with reg := runKernel k s.profile s.table s.mem s.reg addr.toNat len.toNat }.respond 0)
        else .fault .spanNotAdmitted := by
  unfold consumeWith withEngine spanFault
  by_cases hc : s.configured
  · by_cases hr : addr.toNat + len.toNat ≤ 2 ^ 64
    · rw [if_neg (Nat.not_lt.2 hr)]
      by_cases ha : memAdmit s.unadmitted addr len <;> simp [hc, spanInRange_iff.2 hr, ha]
    · have hr' : spanInRange addr len = false := by simpa [spanInRange] using hr
      rw [if_pos (Nat.lt_of_not_le hr)]
      simp [hc, hr']
  · simp [hc]

/-- A consume command is the wrapper with some kernel. -/
theorem exec_consumeForms {i : Instr} {addr len : Word} (hi : i ∈ consumeForms addr len) (s : State) :
    ∃ k, exec i s = consumeWith k addr len s := by
  simp only [consumeForms, List.mem_cons, List.not_mem_nil, or_false] at hi
  rcases hi with rfl | rfl | rfl | rfl | rfl | rfl <;> exact ⟨_, rfl⟩

/-! ### The commands -/

theorem execMake_next {wd : BitVec 8} {k : BitVec 3} {ri ro : Bool} {poly ini xorout : Word} {s t : State}
    (h : execMake wd k ri ro poly ini xorout s = .next t) :
    (∃ f, t = s.raise f) ∨ ∃ P : Profile, P.Legal ∧ t = s.create P := by
  unfold execMake at h
  split at h
  · cases h; exact .inl ⟨_, rfl⟩
  · exact (makeEngine_next h).imp id fun h => ⟨_, h⟩

theorem execReset_next {s t : State} (h : execReset s = .next t) : Ends .reset s t := by
  unfold execReset at h
  split at h
  · cases h; exact .inl ⟨_, rfl⟩
  · cases h; exact .inr (.restarted (by simp_all))

theorem execDigest_next {s t : State} (h : execDigest s = .next t) : Ends .digest s t := by
  unfold execDigest at h
  split at h
  · cases h; exact .inl ⟨_, rfl⟩
  · cases h; exact .inr (.digested (by simp_all))

theorem execTune_next {ds dr : Bool} {size reps : Word} {s t : State} (h : execTune ds dr size reps s = .next t) :
    Ends (.tune ds dr size reps) s t := by
  unfold execTune at h
  split at h
  · cases h; exact .inl ⟨_, rfl⟩
  · split at h
    · cases h; exact .inl ⟨_, rfl⟩
    · cases h; exact .inr (.tuned ds dr size reps (by simp_all) (BitVec.not_lt.1 ‹_›))

theorem consumeWith_ends {i : Instr} {k : Kernel} {addr len : Word} {s t : State} (hi : i ∈ consumeForms addr len)
    (h : consumeWith k addr len s = .next t) : Ends i s t := by
  rcases consumeWith_next h with h | ⟨hc, hr, rfl⟩
  · exact .inl h
  · exact .inr (.consumed k hi hc hr)

theorem makeEngine_ends {i : Instr} {P : Profile} {s t : State} (hi : i.needsEngine = false)
    (h : makeEngine P s = .next t) : Ends i s t := by
  rcases makeEngine_next h with h | ⟨hP, rfl⟩
  · exact .inl h
  · exact .inr (.created hi hP)

/-- What a command can do. -/
theorem exec_next {i : Instr} {s t : State} (h : exec i s = .next t) : Ends i s t := by
  cases i with
  | make wd k ri ro poly ini xorout =>
    rcases execMake_next h with h | ⟨P, hP, rfl⟩
    · exact .inl h
    · exact .inr (.created rfl hP)
  | reset => exact execReset_next h
  | consume a n => exact consumeWith_ends (by simp [consumeForms]) h
  | consumekByte a n => exact consumeWith_ends (by simp [consumeForms]) h
  | consumek1w a n => exact consumeWith_ends (by simp [consumeForms]) h
  | consumek2w a n => exact consumeWith_ends (by simp [consumeForms]) h
  | consumek4w a n => exact consumeWith_ends (by simp [consumeForms]) h
  | consumek8w a n => exact consumeWith_ends (by simp [consumeForms]) h
  | digest => exact execDigest_next h
  | tune ds dr size reps => exact execTune_next h
  | crc16 => exact makeEngine_ends (P := presetProfile .crc16) rfl h
  | crc16Ccitt => exact makeEngine_ends (P := presetProfile .crc16Ccitt) rfl h
  | crc32 => exact makeEngine_ends (P := presetProfile .crc32) rfl h
  | crc64 => exact makeEngine_ends (P := presetProfile .crc64) rfl h
  | crc64Iso => exact makeEngine_ends (P := presetProfile .crc64Iso) rfl h

/-! ### The step -/

/-- What a step can do: wait, reject an illegal header, or run a command. -/
theorem step_next {s t : State} (h : step s = .next t) :
    (fetch s = .waiting ∧ t = s) ∨
    (∃ why rest, fetch s = .illegal why rest ∧ t = (s.takeDescriptor rest).raise .illegalCommand) ∨
    (∃ i rest, fetch s = .command i rest ∧ Ends i (s.takeDescriptor rest) t) := by
  unfold step at h
  split at h
  · cases h; exact .inl ⟨‹_›, rfl⟩
  · cases h; exact .inr (.inl ⟨_, _, ‹_›, rfl⟩)
  · exact .inr (.inr ⟨_, _, ‹_›, exec_next h⟩)

end Sys2Proof.Machine
end

