-- ==== Sys2Proof/Laws/PerInstr.lean ====
section
/-! SUPPORT. Facts about commands as syntax, one lemma a constructor. The family `Descriptor`: the encoding of a command
selects a row of the opcode table by its header and has the length its opcode gives. -/

namespace Sys2Proof.Laws.Descriptor

/-- The encoded header selects a row of the opcode table, and the descriptor is as long as its opcode says (R62, R66). -/
def Statement (i : Instr) : Prop :=
  opcodeRows.any (selectsRow ((encode i).headD 0)) = true ∧
    (encode i).length = descriptorLength (opOf ((encode i).headD 0))

/-- The two facts from the header and the number of words. -/
theorem of_header {i : Instr} {h : Word} {ops : List Word} {n : Nat} (he : encode i = h :: ops)
    (hrow : opcodeRows.any (selectsRow h) = true) (hop : descriptorLength (opOf h) = n) (hn : ops.length + 1 = n) :
    Statement i := by
  unfold Statement
  rw [he]
  exact ⟨hrow, hn.trans hop.symm⟩

theorem make (wd : BitVec 8) (k : BitVec 3) (ri ro : Bool) (poly ini xorout : Word) :
    Statement (.make wd k ri ro poly ini xorout) := by
  have hrow : selectsRow (makeHeader wd k ri ro) (0x0001, 0xFFFFFFFFFF00E0FF) = true := by
    have h : ∀ i, i < 64 → ((makeHeader wd k ri ro) &&& 0xFFFFFFFFFF00E0FF#64).getLsbD i = (1#64).getLsbD i := by
      intro i hi
      interval_cases i <;> cases ri <;> cases ro <;> simp [makeHeader, flagBit]
    simpa [selectsRow] using BitVec.eq_of_getLsbD_eq h
  have hop : opOf (makeHeader wd k ri ro) = 0x01 := by
    have h : ∀ i, i < 8 → (opOf (makeHeader wd k ri ro)).getLsbD i = (1#8).getLsbD i := by
      intro i hi
      interval_cases i <;> cases ri <;> cases ro <;> simp [opOf, makeHeader, flagBit]
    exact BitVec.eq_of_getLsbD_eq h
  exact of_header rfl (by simp only [opcodeRows, List.any_cons, hrow, Bool.true_or]) (by rw [hop]; rfl) rfl

theorem reset : Statement .reset := of_header rfl (by decide) (by decide) rfl
theorem consume (addr len : Word) : Statement (.consume addr len) := of_header (n := 3) rfl (by decide) (by decide) rfl
theorem consumekByte (addr len : Word) : Statement (.consumekByte addr len) := of_header (n := 3) rfl (by decide) (by decide) rfl
theorem consumek1w (addr len : Word) : Statement (.consumek1w addr len) := of_header (n := 3) rfl (by decide) (by decide) rfl
theorem consumek2w (addr len : Word) : Statement (.consumek2w addr len) := of_header (n := 3) rfl (by decide) (by decide) rfl
theorem consumek4w (addr len : Word) : Statement (.consumek4w addr len) := of_header (n := 3) rfl (by decide) (by decide) rfl
theorem consumek8w (addr len : Word) : Statement (.consumek8w addr len) := of_header (n := 3) rfl (by decide) (by decide) rfl
theorem digest : Statement .digest := of_header rfl (by decide) (by decide) rfl
theorem tune (ds dr : Bool) (size reps : Word) : Statement (.tune ds dr size reps) := by
  cases ds <;> cases dr <;> exact of_header (n := 3) rfl (by decide) (by decide) rfl
theorem crc16 : Statement .crc16 := of_header rfl (by decide) (by decide) rfl
theorem crc16Ccitt : Statement .crc16Ccitt := of_header rfl (by decide) (by decide) rfl
theorem crc32 : Statement .crc32 := of_header rfl (by decide) (by decide) rfl
theorem crc64 : Statement .crc64 := of_header rfl (by decide) (by decide) rfl
theorem crc64Iso : Statement .crc64Iso := of_header rfl (by decide) (by decide) rfl

end Sys2Proof.Laws.Descriptor
end

