-- ==== Sys2Proof/Tests/Slice0.lean ====
section
/-! SUPPORT. Small tests, each expected value from spec/95_test_vectors.md or the example of a rule, and for each statement
with hypotheses a state and operands that meet them. -/

namespace Sys2Proof.Tests

open Sys2Proof.Machine

/-! ### Decoding: one word of each command, written out from R61 and R66 -/

theorem test_decode_make : decodeTableWord 256 (0x201C01 + 0x04C11DB7 * 2 ^ 64 + 0xFFFFFFFF * 2 ^ 128) =
    some (.make 32 4 true true 0x04C11DB7 0xFFFFFFFF 0) := by decide
theorem test_decode_reset : decodeTableWord 64 0x02 = some .reset := by decide
theorem test_decode_consume : decodeTableWord 192 (0x03 + 0x1000 * 2 ^ 64 + 9 * 2 ^ 128) = some (.consume 0x1000 9) := by
  decide
theorem test_decode_consumek_byte : decodeTableWord 192 (0x0004 + 0x1000 * 2 ^ 64 + 9 * 2 ^ 128) =
    some (.consumekByte 0x1000 9) := by decide
theorem test_decode_consumek_1w : decodeTableWord 64 0x0104 = some (.consumek1w 0 0) := by decide
theorem test_decode_consumek_2w : decodeTableWord 64 0x0204 = some (.consumek2w 0 0) := by decide
theorem test_decode_consumek_4w : decodeTableWord 64 0x0304 = some (.consumek4w 0 0) := by decide
theorem test_decode_consumek_8w : decodeTableWord 64 0x0404 = some (.consumek8w 0 0) := by decide
theorem test_decode_digest : decodeTableWord 64 0x05 = some .digest := by decide
theorem test_decode_tune : decodeTableWord 192 (0x2000006 + 100 * 2 ^ 64) = some (.tune false true 100 0) := by decide
theorem test_decode_crc16 : decodeTableWord 64 0x10 = some .crc16 := by decide
theorem test_decode_crc16_ccitt : decodeTableWord 64 0x11 = some .crc16Ccitt := by decide
theorem test_decode_crc32 : decodeTableWord 64 0x12 = some .crc32 := by decide
theorem test_decode_crc64 : decodeTableWord 64 0x13 = some .crc64 := by decide
theorem test_decode_crc64_iso : decodeTableWord 64 0x14 = some .crc64Iso := by decide

/-- Headers of section 7.1 that are illegal, with the test of R67 each fails. -/
theorem test_illegal_headers :
    illegalReason 0x07 = some .opcode ∧ illegalReason 0x102001 = some .reservedBit ∧
    illegalReason 0x8000000000000001 = some .reservedBit ∧ illegalReason 0x1100001 = some .unusedField ∧
    illegalReason 0x0403 = some .unusedField ∧ illegalReason 0x0804 = some .unusedField ∧
    illegalReason 0x100501 = some .kernelNumber ∧ illegalReason 0x0704 = some .kernelNumber ∧
    illegalReason 0x180001 = none := by decide

/-- A short descriptor waits; an illegal header gives its words away. -/
theorem test_framing : decode [0x03, 0x1000] = .waiting ∧ decode [0x504, 1, 2, 5] = .illegal .kernelNumber [5] := by
  decide

/-! ### Well-formedness -/

theorem test_wellFormed_refuses_kernel_five : ¬ WellFormed (.make 16 5 false false 0 0 0) := by decide
theorem test_wellFormed_accepts_width_24 : WellFormed (.make 24 4 false false 0 0 0) := by decide

/-! ### States for the tests -/

/-- CRC-16 (ARC), CRC-16/CCITT-FALSE, CRC-32 and CRC-64 of R100, with a default kernel. -/
def arc (k : Kernel) : Profile := ⟨16, 0x8005, 0, 0, true, true, k⟩
def ccitt (k : Kernel) : Profile := ⟨16, 0x1021, 0xFFFF, 0, false, false, k⟩
def ieee (k : Kernel) : Profile := ⟨32, 0x04C11DB7, 0xFFFFFFFF, 0xFFFFFFFF, true, true, k⟩
def ecma (k : Kernel) : Profile := ⟨64, 0x42F0E1EBA9EA3693, 0xFFFFFFFFFFFFFFFF, 0xFFFFFFFFFFFFFFFF, true, true, k⟩

/-- A block fresh from a MAKE, with bytes in `MEM` from 0x1000. -/
def fresh (P : Profile) (bytes : List Byte) : State := (State.reset.hostFill 0x1000 bytes).create P

/-- The 9 bytes "123456789" and the 16 bytes "0123456789abcdef". -/
def m9 : List Byte := [0x31, 0x32, 0x33, 0x34, 0x35, 0x36, 0x37, 0x38, 0x39]
def m16 : List Byte :=
  [0x30, 0x31, 0x32, 0x33, 0x34, 0x35, 0x36, 0x37, 0x38, 0x39, 0x61, 0x62, 0x63, 0x64, 0x65, 0x66]
/-- The 32 bytes 00, 01, ..., 1F. -/
def m32 : List Byte := (List.range 32).map fun i => BitVec.ofNat 8 i

/-- `REG` after an outcome, and `RESP` after it. -/
def regOf : Host.Outcome State Fault Refusal → Option Word
  | .next t => some t.reg
  | .fault _ => none
  | .refused _ => none
def respOf : Host.Outcome State Fault Refusal → Option Resp
  | .next t => some t.resp
  | .fault _ => none
  | .refused _ => none

/-! ### The table (section 2.3) and the register's first value -/

theorem test_row_zero : tableGet (tableOf (arc .byte)) 0 0x01 = 0xC0C1 ∧ tableGet (tableOf (ccitt .byte)) 0 0x80 = 0x9188 ∧
    tableGet (tableOf (ieee .byte)) 0 0x96 = 0x196C3671 ∧ tableGet (tableOf (ecma .byte)) 0 0x80 = 0xC96C5795D7870F42 := by
  decide +kernel
theorem test_later_rows : tableGet (tableOf (ieee .byte)) 1 0x01 = 0x191B3141 ∧
    tableGet (tableOf (ccitt .byte)) 2 0xFF = 0xCF63 ∧ tableGet (tableOf (arc .byte)) 31 0xFF = 0xE471 := by decide +kernel
theorem test_initReg_reversed : initReg ⟨16, 0x1021, 0x1D0F, 1, true, false, .w2⟩ = 0xF0B8 := by decide +kernel
theorem test_bswap : bswapW 16 0x1234 = 0x3412 ∧ bswapW 32 0xA695C4AA = 0xAAC495A6 ∧
    bswapW 64 0x33302B9FC23855A8 = 0xA85538C29F2B3033 := by decide +kernel

/-! ### The commands -/

theorem test_make : regOf (exec (.make 16 1 false false 0x1021 0xFFFF 0) State.reset) = some 0xFFFF := by decide
theorem test_make_width_before_bits :
    respOf (exec (.make 24 0 false false 0xFFFFFFFFFFFFFFFF 0 0) State.reset) = some ⟨1, 0⟩ := by decide
theorem test_crc16 : regOf (exec .crc16 State.reset) = some 0 := by decide
theorem test_crc16_ccitt : regOf (exec .crc16Ccitt State.reset) = some 0xFFFF := by decide
theorem test_crc32 : regOf (exec .crc32 State.reset) = some 0xFFFFFFFF := by decide +kernel
theorem test_crc64 : regOf (exec .crc64 State.reset) = some 0xFFFFFFFFFFFFFFFF := by decide +kernel
theorem test_crc64_iso : regOf (exec .crc64Iso (fresh (ecma .byte) [])) = some 0 := by decide +kernel
theorem test_reset : regOf (exec .reset { fresh ⟨16, 0x8005, 1, 0, true, true, .byte⟩ [] with reg := 5 }) = some 0x8000 := by
  decide +kernel
theorem test_reset_unconfigured : respOf (exec .reset State.reset) = some ⟨3, 0⟩ := by decide +kernel
theorem test_consume : regOf (exec (.consume 0x1000 9) (fresh (ieee .w1) m9)) = some 0x340BC6D9 := by decide +kernel
theorem test_consume_past_the_top :
    respOf (exec (.consume 0xFFFFFFFFFFFFFFFF 2) (fresh (ieee .byte) [])) = some ⟨5, 0⟩ := by decide +kernel
theorem test_consumek_byte : regOf (exec (.consumekByte 0x1000 9) (fresh (ccitt .w8) m9)) = some 0x29B1 := by decide +kernel
/-- The carry at W = 64 (R138). -/
theorem test_consumek_1w : regOf (exec (.consumek1w 0x1000 4) (fresh (ecma .byte) m9)) = some 0x31B1786C99473CD7 := by
  decide +kernel
/-- The carry at W = 64, not reflected (section 5). -/
theorem test_consumek_1w_plain :
    regOf (exec (.consumek1w 0x1000 4) (fresh ⟨64, 0x42F0E1EBA9EA3693, 0xFFFFFFFFFFFFFFFF, 0, false, false, .byte⟩ m9)) =
      some 0x33302B9FC23855A8 := by decide +kernel
theorem test_consumek_2w : regOf (exec (.consumek2w 0x1000 8) (fresh (ieee .byte) m9)) = some 0x651F2550 := by
  decide +kernel
theorem test_consumek_4w : regOf (exec (.consumek4w 0x1000 16) (fresh (ccitt .byte) m16)) = some 0x82AF := by
  decide +kernel
theorem test_consumek_8w : regOf (exec (.consumek8w 0x1000 32) (fresh (arc .byte) m32)) = some 0xC36A := by decide +kernel
theorem test_digest : respOf (exec .digest { fresh (ieee .byte) [] with reg := 0x340BC6D9 }) = some ⟨0, 0xCBF43926⟩ := by
  decide +kernel
/-- Not reflected in, reflected out (section 3.3). -/
theorem test_digest_reversed :
    respOf (exec .digest { fresh ⟨16, 0x1021, 0x1D0F, 1, false, true, .byte⟩ [] with reg := 0xE5CC }) =
      some ⟨0, 0x33A6⟩ := by decide +kernel
theorem test_tune_discards_the_stream :
    regOf (exec (.tune true true 0 0) { fresh (ieee .byte) [] with reg := 0x641C1F5C }) = some 0xFFFFFFFF := by decide +kernel
theorem test_tune_range :
    respOf (exec (.tune false false 0x10001 1) { fresh (ieee .byte) [] with tuneBufMax := 0x10000 }) = some ⟨6, 0⟩ := by
  decide +kernel

/-! ### Steps -/

theorem test_step_illegal_header :
    respOf (step { fresh (ieee .byte) [] with port := [0x504, 0xAAAA, 0xBBBB, 5] }) = some ⟨4, 0⟩ := by decide +kernel
theorem test_step_after_reset : regOf (step (State.reset.withFetchWord 64 0x12)) = some 0xFFFFFFFF := by decide +kernel

/-! ### Witnesses: states and operands that meet the statements' hypotheses -/

/-- A configured block with "123456789" at 0x1000. -/
def demo : State := fresh (ccitt .w4) m9

theorem demo_inv : demo.Inv := ⟨fun _ => ⟨by decide, rfl, by decide⟩, by decide⟩
theorem demo_configured : demo.configured = true := rfl
theorem demo_reads : demo.Reads 0x1000 9 := by decide
theorem demo_reads_to_the_top : demo.Reads 0xFFFFFFFFFFFFFFFF 1 := by decide
theorem demo_fresh : demo.reg = initReg demo.profile := rfl
theorem mem_forms (addr len : Word) : Instr.consume addr len ∈ consumeForms addr len := List.mem_cons_self

/-- A consume command that may read its span completes. -/
theorem consume_next_keeps {i : Instr} {addr len : Word} {s : State} (hi : i ∈ consumeForms addr len)
    (hc : s.configured = true) (hr : s.Reads addr len) :
    ∃ t, exec i s = .next t ∧ t.configured = s.configured ∧ t.unadmitted = s.unadmitted := by
  obtain ⟨k, hk⟩ := exec_consumeForms hi s
  exact ⟨_, hk.trans (consumeWith_of_reads hc hr), rfl, rfl⟩
theorem consume_next {i : Instr} {addr len : Word} {s : State} (hi : i ∈ consumeForms addr len)
    (hc : s.configured = true) (hr : s.Reads addr len) : ∃ t, exec i s = .next t :=
  (consume_next_keeps hi hc hr).imp fun _ h => h.1

theorem witness_EncodedCommandsDecodeToThemselves : WellFormed (.make 255 4 true true 1 2 3) := by decide
theorem witness_DecodedCommandsHaveOneEncoding : decode [0x0404, 7, 8, 9] = .command (.consumek8w 7 8) [9] := by decide
theorem witness_DecoderTakesTheDescriptorOfItsOpcode :
    ([(7 : Word)].length + 1 < 3 ∧ opOf 0x03 ∈ [0x03, 0x04, 0x06]) ∧
    (3 ≤ [(7 : Word), 8].length + 1 ∧ illegalReason 0x403 = some .unusedField) ∧
    (4 ≤ [(7 : Word), 8, 9].length + 1 ∧ opOf 0x100001 = 0x01 ∧ illegalReason 0x100001 = none) ∧
    (1 ≤ ([] : List Word).length + 1 ∧ illegalReason 0x05 = none) := by decide
theorem witness_LegalHeadersSelectOneRow : illegalReason 0x3000006 = none ∧
    (0x0006, 0xFFFFFFFFFCFFFFFF) ∈ opcodeRows ∧ selectsRow 0x3000006 (0x0006, 0xFFFFFFFFFCFFFFFF) = true := by decide
theorem witness_PseudoCommandsExpand : (2 ^ 32 - 1) * (2 ^ 32 + 1) < 2 ^ 64 ∧ 2 ^ 64 ≤ 2 ^ 32 * 2 ^ 32 := by decide
theorem witness_StepRunsTheDecodedCommand : decode { demo with port := [0x05, 0x03] }.port = .command .digest [0x03] := by
  decide
theorem witness_PlacedWordsRunAtTheNextStep : decodeTableWord 64 0x12 = some .crc32 := by decide
theorem witness_IllegalHeadersAreTakenAndFault :
    { demo with port := [0x504, 1, 2] }.port = 0x504 :: [1, 2] ∧ illegalReason 0x504 = some .kernelNumber ∧
      descriptorLength (opOf 0x504) ≤ [(1 : Word), 2].length + 1 := by decide
theorem witness_PartialDescriptorsWaitForTheirWords :
    WellFormed (.consume 1 2) ∧ encode (.consume 1 2) = [0x03, 1] ++ [2] ∧ [(2 : Word)] ≠ [] ∧
      { demo with port := [0x03, 1] }.port = [0x03, 1] := by decide
theorem witness_UnconfiguredRegistersAreNotRead : State.reset.configured = false := rfl
theorem witness_MakeCreatesTheEngine :
    (kernelOfNumber 0 = some .byte ∧ (16 : BitVec 8).toNat = 16 ∧ (0xFFFF : Word).toNat < 2 ^ (16 : BitVec 8).toNat) ∧
    (kernelOfNumber 4 = some .w8 ∧ (32 : BitVec 8).toNat = 32 ∧ (0xFFFFFFFF : Word).toNat < 2 ^ (32 : BitVec 8).toNat) ∧
    ((64 : BitVec 8).toNat = 64 ∧ (0xFFFFFFFFFFFFFFFF : Word).toNat < 2 ^ (64 : BitVec 8).toNat) := by decide
theorem witness_MakeFaultsOnAnUnsupportedWidth :
    ((4 : BitVec 3) ≤ 4 ∧ (17 : BitVec 8).toNat ≠ 16 ∧ (17 : BitVec 8).toNat ≠ 32 ∧ (17 : BitVec 8).toNat ≠ 64) ∧
      ∃ t, exec .crc64Iso State.reset = .next t := ⟨by decide, _, rfl⟩
theorem witness_MakeFaultsOnAnInvalidProfile :
    ((4 : BitVec 3) ≤ 4 ∧ (16 : BitVec 8).toNat = 16 ∧ 2 ^ (16 : BitVec 8).toNat ≤ (0x10000 : Word).toNat) ∧
      ((32 : BitVec 8).toNat = 32 ∧ 2 ^ (32 : BitVec 8).toNat ≤ (0x100000000 : Word).toNat) ∧
      ∃ t, exec (.make 64 0 true true 0xFFFFFFFFFFFFFFFF 0 0) State.reset = .next t :=
  ⟨by decide, by decide, _, rfl⟩
theorem witness_PresetsCreateTheirEngines : ∃ P : Profile, P = ⟨16, 0x8005, 0, 0, true, true, Config.presetDkernel .crc16⟩ :=
  ⟨_, rfl⟩
theorem witness_RowZeroAdvancesOneByte : (arc .byte).Legal ∧ (ieee .byte).Legal ∧ (ecma .byte).Legal := by decide
theorem witness_TableRowsFollowTheRecurrence :
    (ccitt .byte).Legal ∧ tableOf (ccitt .byte) = tableOf (ccitt .byte) ∧ 0 < 32 ∧ (1 < 32 ∧ 1 ≤ 1) ∧ 31 < 32 ∧ 1 ≤ 31 :=
  ⟨by decide, rfl, by decide, by decide, by decide, by decide⟩
theorem witness_TableDependsOnWidthPolyAndReflection :
    (ccitt .w1).width = (⟨16, 0x1021, 0, 5, false, true, .w8⟩ : Profile).width ∧
    (ccitt .w1).poly = (⟨16, 0x1021, 0, 5, false, true, .w8⟩ : Profile).poly ∧
    (ccitt .w1).refin = (⟨16, 0x1021, 0, 5, false, true, .w8⟩ : Profile).refin := by decide
theorem witness_RowZeroIsLinear : (⟨32, 0, 0, 0, false, false, .byte⟩ : Profile).Legal := by decide
theorem witness_ResetRestoresTheInitialRegister : State.reset.configured = false ∧ demo.configured = true := ⟨rfl, rfl⟩
theorem witness_DigestFinalizesWithoutMutating : State.reset.configured = false ∧ demo.configured = true := ⟨rfl, rfl⟩
theorem witness_TuneDrawsAKernelAndRestarts :
    { demo with tuneBufMax := 8191 }.configured = true ∧
      (if true then 8191 else (0 : Word).toNat) ≤ { demo with tuneBufMax := 8191 }.tuneBufMax.toNat ∧
      (if false then 8191 else (0xFFFFFFFFFFFFFFFF : Word).toNat) ≤ demo.tuneBufMax.toNat := by decide
theorem witness_ConsumeRunsTheActiveKernel :
    State.reset.configured = false ∧
    (demo.configured = true ∧ 2 ^ 64 < (0xFFFFFFFFFFFFFFFF : Word).toNat + (2 : Word).toNat) ∧
    ({ demo with unadmitted := [.touching 0x1008 1] }.configured = true ∧
      (0x1000 : Word).toNat + (9 : Word).toNat ≤ 2 ^ 64 ∧
      memAdmit [.touching 0x1008 1] 0x1000 9 = false ∧ memAdmit [.touching 0x1008 1] 0x1000 8 = true ∧
      memAdmit [.within 0 0xFFFFFFFFFFFFFFFF 5 9] 0x1000 9 = false ∧ memAdmit [.within 0x1001 0x2000 0 9] 0x1000 9 = true) ∧
    ((0xFFFFFFFFFFFFFFFF : Word).toNat + (1 : Word).toNat ≤ 2 ^ 64 ∧ memAdmit demo.unadmitted 0xFFFFFFFFFFFFFFFF 1 = true) := by
  decide
theorem witness_ConsumekRunsItsOwnKernel : demo.configured = true ∧ (1 : Word).toNat + (0xFFFFFFFFFFFFFFFF : Word).toNat ≤ 2 ^ 64 ∧
    memAdmit demo.unadmitted 1 0xFFFFFFFFFFFFFFFF = true := by decide
/-- A fill that runs past the last address: what lies past it is dropped. -/
theorem test_fill_stops_at_the_top :
    (State.reset.hostFill 0xFFFFFFFFFFFFFFFE [1, 2, 3]).mem = [(0xFFFFFFFFFFFFFFFE, 1), (0xFFFFFFFFFFFFFFFF, 2)] := by
  decide +kernel
theorem witness_EmptySpansAreNoOps :
    (demo.configured = true ∧ demo.unadmitted = [] ∧
      Instr.consume 0xFFFFFFFFFFFFFFFF 0 ∈ consumeForms 0xFFFFFFFFFFFFFFFF 0) ∧
    memAdmit [.touching 0x1000 9] 0x1004 0 = true ∧ memAdmit [.within 0 0xFFFFFFFFFFFFFFFF 0 9] 0x1004 0 = false := by
  decide
/-- A refusal of empty spans stops them, and no other span. -/
theorem test_refused_empty_span :
    exec (.consume 0x1000 0) { demo with unadmitted := [.within 0 0xFFFFFFFFFFFFFFFF 0 0] } = .fault .spanNotAdmitted ∧
    memAdmit [.within 0 0xFFFFFFFFFFFFFFFF 0 0] 0x1000 1 = true := ⟨rfl, by decide⟩
theorem witness_ConsumeReadsOnlyItsSpan :
    (∀ a, (0x1000 : Word).toNat ≤ a → a < (0x1000 : Word).toNat + (2 : Word).toNat →
      Memory.read [(0x1000, 0x31), (0x1001, 0x32), (0x5000, 7)] a = demo.mem.read a) ∧
    Instr.consume 0x1000 2 ∈ consumeForms 0x1000 2 ∧ ∃ t, exec (.consume 0x1000 2) demo = .next t :=
  ⟨by decide, by decide, consume_next (mem_forms _ _) rfl (by decide)⟩
theorem witness_CommandsWithoutAnEngineFault : State.reset.configured = false ∧
    Instr.consumek8w 1 2 ∈ (Instr.reset :: .digest :: .tune true true 0 0 :: consumeForms 1 2) ∧
    Instr.crc16.needsEngine = false ∧ ∃ t, exec .crc16 State.reset = .next t := ⟨rfl, by decide, rfl, _, rfl⟩
theorem witness_SpansPastTheTopFault : demo.configured = true ∧
    2 ^ 64 < (2 : Word).toNat + (0xFFFFFFFFFFFFFFFF : Word).toNat ∧
    Instr.consumek8w 2 0xFFFFFFFFFFFFFFFF ∈ consumeForms 2 0xFFFFFFFFFFFFFFFF ∧
    ∃ t, exec (.consume 0xFFFFFFFFFFFFFFFF 0) demo = .next t :=
  ⟨rfl, by decide, by decide, consume_next (mem_forms _ _) rfl (by decide)⟩
theorem witness_OversizedTuneBuffersFault : { demo with tuneBufMax := 8190 }.configured = true ∧
    { demo with tuneBufMax := 8190 }.tuneBufMax.toNat < (if true then 8191 else (0 : Word).toNat) ∧
    demo.tuneBufMax.toNat = 2 ^ 64 - 1 ∧ ∃ t, exec (.tune false false 0xFFFFFFFFFFFFFFFF 0) demo = .next t :=
  ⟨rfl, by decide, by decide, _, rfl⟩
theorem witness_FirstFaultInOrderIsReported :
    firstFault (.make 0 5 false false 0 0 0) State.reset = some .illegalCommand ∧
    firstFault (.make 0 4 false false 1 0 0) State.reset = some .unsupportedWidth ∧
    firstFault (.make 16 4 false false 0xFFFF 0 0x10000) State.reset = some .invalidProfile ∧
    firstFault (.consume 0xFFFFFFFFFFFFFFFF 2) State.reset = some .notConfigured ∧
    firstFault (.consume 0xFFFFFFFFFFFFFFFF 2) demo = some .spanRange ∧
    firstFault (.tune true true 0 0) { demo with tuneBufMax := 8190 } = some .tuneRange ∧
    (∃ t, exec .digest State.reset = .next t ∧ t.resp.status ≠ 0) :=
  ⟨by decide, by decide, by decide, by decide, by decide, by decide, _, rfl, by decide⟩
theorem witness_CommandsRespondAsTheSummarySays :
    (∃ t, exec (.make 16 4 true true 1 0 0) State.reset = .next t) ∧ (∃ t, exec .crc32 State.reset = .next t) ∧
    (∃ t, exec .reset demo = .next t) ∧ (∃ t, exec (.consumek4w 0x1000 9) demo = .next t) ∧
    (∃ t, exec .digest demo = .next t) ∧ (∃ t, exec (.tune true true 0 0) demo = .next t) :=
  ⟨⟨_, rfl⟩, ⟨_, rfl⟩, ⟨_, rfl⟩, consume_next (addr := 0x1000) (len := 9) (by decide) rfl (by decide), ⟨_, rfl⟩, ⟨_, rfl⟩⟩
theorem witness_ResponseValueIsTheDigestOrZero :
    { demo with port := [0x05] }.Inv ∧ decode [0x05] = .command .digest [] ∧
    (∃ t, step { demo with port := [0x05] } = .next t ∧ t.resp.status = 0) ∧
    { demo with port := [0x02] }.Inv ∧ decode [0x02] ≠ .waiting ∧ ∃ t, step { demo with port := [0x02] } = .next t :=
  ⟨demo_inv, by decide, ⟨_, rfl, rfl⟩, demo_inv, by decide, _, rfl⟩
theorem witness_OnlyUnadmittedSpansStop :
    ∃ f, exec (.consumek2w 0x1000 9) { demo with unadmitted := [.touching 0x1008 1] } = .fault f := ⟨.spanNotAdmitted, by rfl⟩
theorem witness_ConsumeFrame : Instr.consume 0x1000 9 ∈ consumeForms 0x1000 9 ∧ ∃ t, exec (.consume 0x1000 9) demo = .next t :=
  ⟨by decide, consume_next (mem_forms _ _) rfl demo_reads⟩
theorem witness_ResetAndDigestFrame : (∃ t, exec .reset demo = .next t) ∧ ∃ t, exec .digest demo = .next t :=
  ⟨⟨_, rfl⟩, _, rfl⟩
theorem witness_TuneFrame : ∃ t, exec (.tune true false 0 5) demo = .next t := ⟨_, rfl⟩
theorem witness_MakeAndPresetFrame : (Instr.make 8 0 false false 7 0 0).needsEngine = false ∧
    ∃ t, exec (.make 8 0 false false 7 0 0) demo = .next t ∧ t.resp.status ≠ 0 := ⟨rfl, _, rfl, by decide⟩
theorem witness_OnlyTheNamedCommandsWrite :
    (∃ t, step (State.reset.withFetchWord 64 0x12) = .next t ∧ t.configured ≠ State.reset.configured) ∧
    (∃ t, step { demo with port := [0x03, 0x1000, 0] } = .next t ∧ demo.configured = true) ∧
    (∃ t, step { demo with port := [0x100001, 0, 0, 0] } = .next t ∧ t.active ≠ demo.active) ∧
    ∃ t, step { demo with port := [0x02], reg := 5 } = .next t ∧ t.reg ≠ 5 :=
  ⟨⟨_, rfl, by decide⟩, ⟨_, rfl, rfl⟩, ⟨_, rfl, by decide⟩, _, rfl, by decide⟩
theorem witness_NoStepWritesMemory : ∃ t, step { demo with port := [0x05] } = .next t := ⟨_, rfl⟩
theorem witness_EveryStepKeepsTheEngineInvariant :
    { demo with port := [0x05] }.Inv ∧ ∃ t, step { demo with port := [0x05] } = .next t := ⟨demo_inv, _, rfl⟩
theorem witness_HostActionsKeepTheEngineInvariant : demo.Inv := demo_inv
theorem witness_HostWritesAreReadBack : demo.mem.wf = true := by decide
theorem witness_BlockIsTheXorOfItsTableEntries :
    ((ecma .byte).Legal ∧ (0xFFFFFFFFFFFFFFFF : Word).toNat < 2 ^ (ecma .byte).width) ∧
    ((arc .byte).Legal ∧ (0xFFFF : Word).toNat < 2 ^ (arc .byte).width) := by decide
theorem witness_KernelsAreEquivalent :
    (ieee .byte).Legal ∧ demo.table = tableOf demo.profile ∧ (0xFFFFFFFF : Word).toNat < 2 ^ (ieee .byte).width :=
  ⟨by decide, rfl, by decide⟩
theorem witness_ActiveKernelChangesNoResult : demo.Inv ∧ ∃ t, exec (.consume 0x1000 9) demo = .next t :=
  ⟨demo_inv, consume_next (mem_forms _ _) rfl demo_reads⟩
theorem witness_DigestEqualsTheBitSerialReference :
    demo.Inv ∧ demo.configured = true ∧ demo.reg = initReg demo.profile ∧ demo.Reads 0x1000 9 :=
  ⟨demo_inv, rfl, rfl, demo_reads⟩
theorem witness_PartialFeedsCompose :
    demo.mem.span 0x1000 9 = demo.mem.span 0x1000 5 ++ demo.mem.span 0x1005 4 ∧
    demo.Reads 0x1000 5 ∧ demo.Reads 0x1005 4 ∧ demo.Reads 0x1000 9 ∧
    ∃ t u v, exec (.consume 0x1000 5) demo = .next t ∧ exec (.consumekByte 0x1005 4) t = .next u ∧
      exec (.consumek8w 0x1000 9) demo = .next v := by
  refine ⟨by decide, by decide, by decide, by decide, ?_⟩
  obtain ⟨v, hv⟩ := consume_next (i := .consumek8w 0x1000 9) (by decide) demo_configured demo_reads
  obtain ⟨t, ht, hc, hu⟩ := consume_next_keeps (mem_forms 0x1000 5) demo_configured (by decide)
  have hr : t.Reads 0x1005 4 := by rw [State.Reads, hu]; decide
  obtain ⟨u, hu⟩ := consume_next (i := .consumekByte 0x1005 4) (by decide) hc hr
  exact ⟨t, u, v, ht, hu, hv⟩
theorem witness_DigestOfTheEmptyMessage :
    demo.Inv ∧ (∃ t, exec (.make 16 0 true false 0x1021 0x1D0F 1) demo = .next t ∧ t.resp.status = 0) ∧
    (∃ t, exec .reset demo = .next t ∧ t.resp.status = 0) ∧ ∃ t, exec (.tune false false 0 0) demo = .next t ∧ t.resp.status = 0 :=
  ⟨demo_inv, ⟨_, rfl, rfl⟩, ⟨_, rfl, rfl⟩, _, rfl, rfl⟩
theorem witness_ReflectedEnginesMirror :
    (arc .byte).Legal ∧ (arc .byte).refin = true ∧ (arc .byte).refout = true ∧ (arc .byte).xorout = 0 ∧
    (⟨16, 0x8005, 0, 0, false, false, .w2⟩ : Profile) = { arc .byte with refin := false, refout := false, dkernel := .w2 } ∧
    ∀ i, i < 2 → Memory.read [(5, 0x8C), (6, 0x4C)] (5 + i) = rev8 (demo.mem.read (0x1000 + i)) := by decide
theorem witness_TuneChangesNoDigest :
    demo.Inv ∧ demo.configured = true ∧ (if false then 8191 else (0 : Word).toNat) ≤ demo.tuneBufMax.toNat ∧ demo.Reads 0x1000 9 :=
  ⟨demo_inv, rfl, by decide, demo_reads⟩

end Sys2Proof.Tests
end

section
/-! PROOFS. `MemAdmit` as a list of refused span sets (R8, R47): O58. -/

namespace Sys2Proof.Machine

/-- What `memAdmit` decides: no set of the list has the span. -/
theorem memAdmit_iff {u : List SpanSet} {addr len : Word} :
    memAdmit u addr len = true ↔ ∀ S ∈ u, S.has addr.toNat len.toNat = false := by
  simp [memAdmit]

@[simp] theorem memAdmit_nil (addr len : Word) : memAdmit [] addr len = true := rfl

/-- The set that holds one span alone; by it a platform can refuse spans one at a time, empty ones included. -/
def SpanSet.only (addr len : Word) : SpanSet :=
  .within addr.toNat addr.toNat len.toNat len.toNat

theorem SpanSet.only_has_eq_false_iff {a l addr len : Word} :
    (SpanSet.only a l).has addr.toNat len.toNat = false ↔ (a, l) ≠ (addr, len) := by
  have hspan : (a, l) = (addr, len) ↔ a.toNat = addr.toNat ∧ l.toNat = len.toNat := by
    simp [BitVec.toNat_inj]
  rw [ne_eq, hspan, ← Bool.not_eq_true]
  simp only [SpanSet.only, SpanSet.has, Bool.and_eq_true, decide_eq_true_eq]
  omega

/-- A list that refuses each of `spans` alone admits exactly the other spans. -/
theorem memAdmit_map_only_iff {spans : List (Word × Word)} {addr len : Word} :
    memAdmit (spans.map fun p => SpanSet.only p.1 p.2) addr len = true ↔ (addr, len) ∉ spans := by
  rw [memAdmit_iff, List.forall_mem_map]
  simp only [SpanSet.only_has_eq_false_iff]
  exact List.forall_mem_ne'

/-- There are finitely many spans, so the refused ones stand in a list. -/
theorem exists_list_of_refused_spans (f : Word → Word → Bool) :
    ∃ spans : List (Word × Word), ∀ addr len, (addr, len) ∉ spans ↔ f addr len = true := by
  have hfin : {p : Word × Word | f p.1 p.2 = false}.Finite := Set.toFinite _
  exact ⟨hfin.toFinset.toList, fun addr len => by simp⟩

/-- Settles O58: the platform's function is given by the list of the spans it refuses, one set for each; after reset the list
is empty. -/
theorem everyMemAdmitCanBeGiven : Obligations.EveryMemAdmitCanBeGiven := by
  refine ⟨fun f => ?_, fun addr len => memAdmit_nil addr len⟩
  obtain ⟨spans, hspans⟩ := exists_list_of_refused_spans f
  refine ⟨spans.map fun p => SpanSet.only p.1 p.2, fun addr len => ?_⟩
  exact Bool.eq_iff_iff.2 (memAdmit_map_only_iff.trans (hspans addr len))

end Sys2Proof.Machine
end

section
/-! PROOFS. The engine invariant (R29): every step (O45), the reset state (O46) and the host's actions (O47) have it. -/

namespace Sys2Proof.Machine

/-! ### The invariant and the updates of the state -/

theorem State.inv_raise {s : State} {f : CmdFault} (hs : s.Inv) : (s.raise f).Inv := hs

theorem State.inv_takeDescriptor {s : State} (rest : List Word) (hs : s.Inv) : (s.takeDescriptor rest).Inv := hs

/-- Of a block that is not configured the invariant speaks of `MEM` alone. -/
theorem State.inv_of_not_configured {s : State} (hc : s.configured = false) (hm : s.mem.wf = true) : s.Inv :=
  ⟨fun h => absurd h (by simp [hc]), hm⟩

/-- A new engine is as R29 says: legal profile, its table, a W-bit register. -/
theorem State.inv_create {s : State} {P : Profile} (hP : P.Legal) (hm : s.mem.wf = true) : (s.create P).Inv := by
  have ⟨_, _, hinit, _⟩ := hP
  exact ⟨fun _ => ⟨hP, rfl, initReg_lt hinit⟩, hm⟩

/-- The other commands write of the engine `REG` alone (R29 item 3), and of a value below 2^W. -/
theorem State.inv_of_reg_lt {s t : State} (hs : s.Inv) (hc : s.configured = true) (hP : t.profile = s.profile)
    (hT : t.table = s.table) (hm : t.mem = s.mem) (hr : t.reg.toNat < 2 ^ s.profile.width) : t.Inv := by
  obtain ⟨hlegal, htable, _⟩ := hs.1 hc
  refine ⟨fun _ => ⟨?_, ?_, ?_⟩, ?_⟩
  · rwa [hP]
  · rw [hT, hP, htable]
  · rwa [hP]
  · rw [hm]; exact hs.2

/-! ### Every command and every step -/

theorem Effect.inv {i : Instr} {s t : State} (h : Effect i s t) (hs : s.Inv) : t.Inv := by
  cases h with
  | created he hP => exact State.inv_create hP hs.2
  | restarted hc =>
    obtain ⟨⟨_, _, hinit, _⟩, _, _⟩ := hs.1 hc
    exact State.inv_of_reg_lt hs hc rfl rfl rfl (initReg_lt hinit)
  | consumed k hi hc hr =>
    obtain ⟨⟨_, hpoly, _, _⟩, htable, hreg⟩ := hs.1 hc
    refine State.inv_of_reg_lt hs hc rfl rfl rfl ?_
    rw [State.respond_reg, htable]
    exact runKernel_lt hpoly k s.mem hreg _ _
  | digested hc => exact hs
  | tuned ds dr size reps hc hb =>
    obtain ⟨⟨_, _, hinit, _⟩, _, _⟩ := hs.1 hc
    exact State.inv_of_reg_lt hs hc rfl rfl rfl (initReg_lt hinit)

theorem Ends.inv {i : Instr} {s t : State} (h : Ends i s t) (hs : s.Inv) : t.Inv := by
  rcases h with ⟨f, rfl⟩ | h
  · exact State.inv_raise hs
  · exact h.inv hs

/-- Settles O45, by what a step can do: it waits, rejects a header, or runs a command, which faults or has its effect. -/
theorem everyStepKeepsTheEngineInvariant : Obligations.EveryStepKeepsTheEngineInvariant := by
  intro s t hs hstep
  rcases step_next hstep with ⟨_, rfl⟩ | ⟨_, rest, _, rfl⟩ | ⟨i, rest, _, h⟩
  · exact hs
  · exact State.inv_raise (State.inv_takeDescriptor rest hs)
  · exact h.inv (State.inv_takeDescriptor rest hs)

/-! ### Reset and the host -/

/-- Settles O46: the block is not configured and `MEM` lists nothing. -/
theorem resetStateHasTheEngineInvariant : Obligations.ResetStateHasTheEngineInvariant :=
  State.inv_of_not_configured rfl rfl

/-- Settles O47: delivery touches the port alone, a host's byte keeps `MEM` canonical, and hardware reset unconfigures. -/
theorem hostActionsKeepTheEngineInvariant : Obligations.HostActionsKeepTheEngineInvariant := by
  intro s words addr v hs
  refine ⟨hs, ⟨hs.1, ?_⟩, State.inv_of_not_configured rfl hs.2⟩
  exact Memory.write_wf hs.2 addr v

end Sys2Proof.Machine
end

section
/-! PROOFS. Which command reads and writes which state (R20 to R25): O13, O42, O43. -/

namespace Sys2Proof.Machine

/-! ### Commands that need an engine and commands that create one -/

/-- MAKE and the presets look at nothing of the state: they raise the same fault in every state, or create the same engine. -/
theorem makeEngine_faults_or_creates (P : Profile) :
    (∃ f, ∀ s, makeEngine P s = .next (s.raise f)) ∨ ∀ s, makeEngine P s = .next (s.create P) := by
  by_cases hw : isWidth P.width
  · by_cases hf : fitsWidth P.width P.poly ∧ fitsWidth P.width P.init ∧ fitsWidth P.width P.xorout
    · exact .inr fun s => by rw [makeEngine, if_neg (not_not.2 hw), if_neg (not_not.2 hf)]
    · exact .inl ⟨.invalidProfile, fun s => by rw [makeEngine, if_neg (not_not.2 hw), if_pos hf]⟩
  · exact .inl ⟨.unsupportedWidth, fun s => by rw [makeEngine, if_pos hw]⟩

/-- The same of the command: which of the two, and which engine, is fixed by the command. -/
theorem exec_faults_or_creates {i : Instr} (hi : i.needsEngine = false) :
    (∃ f, ∀ s, exec i s = .next (s.raise f)) ∨ ∃ P, ∀ s, exec i s = .next (s.create P) := by
  cases i with
  | make wd k ri ro poly ini xorout =>
    cases hk : kernelOfNumber k with
    | none => exact .inl ⟨.illegalCommand, fun s => by simp only [exec, execMake, hk]⟩
    | some kern =>
      simp only [exec, execMake, hk]
      exact (makeEngine_faults_or_creates _).imp_right fun h => ⟨_, h⟩
  | crc16 => exact (makeEngine_faults_or_creates (presetProfile .crc16)).imp_right fun h => ⟨_, h⟩
  | crc16Ccitt => exact (makeEngine_faults_or_creates (presetProfile .crc16Ccitt)).imp_right fun h => ⟨_, h⟩
  | crc32 => exact (makeEngine_faults_or_creates (presetProfile .crc32)).imp_right fun h => ⟨_, h⟩
  | crc64 => exact (makeEngine_faults_or_creates (presetProfile .crc64)).imp_right fun h => ⟨_, h⟩
  | crc64Iso => exact (makeEngine_faults_or_creates (presetProfile .crc64Iso)).imp_right fun h => ⟨_, h⟩
  | _ => cases hi

/-- Every other command faults on a block with no engine (R164). -/
theorem exec_of_not_configured {i : Instr} {s : State} (hi : i.needsEngine = true) (hc : s.configured = false) :
    exec i s = .next (s.raise .notConfigured) := by
  cases i with
  | reset => simp [exec, execReset, hc]
  | digest => simp [exec, execDigest, hc]
  | tune ds dr size reps => simp [exec, execTune, hc]
  | consume addr len => exact consumeWith_of_not_configured hc
  | consumekByte addr len => exact consumeWith_of_not_configured hc
  | consumek1w addr len => exact consumeWith_of_not_configured hc
  | consumek2w addr len => exact consumeWith_of_not_configured hc
  | consumek4w addr len => exact consumeWith_of_not_configured hc
  | consumek8w addr len => exact consumeWith_of_not_configured hc
  | _ => cases hi

/-- Settles O13: a command that needs an engine faults, MAKE and the presets fault or write all four registers. -/
theorem unconfiguredRegistersAreNotRead : Obligations.UnconfiguredRegistersAreNotRead := by
  intro i s r P T k hc
  cases hi : i.needsEngine with
  | true => exact ⟨_, _, exec_of_not_configured hi hc, exec_of_not_configured hi hc, .inr ⟨hc, rfl⟩⟩
  | false =>
    rcases exec_faults_or_creates hi with ⟨f, hf⟩ | ⟨Q, hQ⟩
    · exact ⟨_, _, hf s, hf _, .inr ⟨hc, rfl⟩⟩
    · exact ⟨_, _, hQ s, hQ _, .inl ⟨rfl, rfl⟩⟩

/-- Settles O42: a fault writes `RESP` alone, and a new engine writes no more than the engine and `RESP`. -/
theorem makeAndPresetFrame : Obligations.MakeAndPresetFrame := by
  intro s t i hi h
  rcases exec_faults_or_creates hi with ⟨f, hf⟩ | ⟨P, hP⟩
  · cases (hf s).symm.trans h
    simp
  · cases (hP s).symm.trans h
    simp

/-! ### What an effect can write -/

theorem Ends.creates_of_profile_ne {i : Instr} {s t : State} (h : Ends i s t)
    (hne : t.profile ≠ s.profile ∨ t.table ≠ s.table ∨ t.configured ≠ s.configured) : i.needsEngine = false := by
  rcases h with ⟨f, rfl⟩ | h
  · simp at hne
  · cases h with
    | created he _ => exact he
    | _ => simp at hne

theorem Ends.creates_or_tunes_of_active_ne {i : Instr} {s t : State} (h : Ends i s t) (hne : t.active ≠ s.active) :
    i.needsEngine = false ∨ ∃ ds dr size reps, i = .tune ds dr size reps := by
  rcases h with ⟨f, rfl⟩ | h
  · simp at hne
  · cases h with
    | created he _ => exact .inl he
    | tuned ds dr size reps _ _ => exact .inr ⟨ds, dr, size, reps, rfl⟩
    | _ => simp at hne

theorem Ends.digest_reg {s t : State} (h : Ends .digest s t) : t.reg = s.reg := by
  rcases h with ⟨f, rfl⟩ | h
  · rfl
  · cases h with
    | created he _ => cases he
    | consumed k hi _ _ => simp [consumeForms] at hi
    | digested _ => rfl

/-- No command clears `CONFIGURED` (R25). -/
theorem Ends.configured_of_configured {i : Instr} {s t : State} (h : Ends i s t) (hc : s.configured = true) :
    t.configured = true := by
  rcases h with ⟨f, rfl⟩ | h
  · exact hc
  · cases h with
    | created _ _ => rfl
    | _ => exact hc

/-- Settles O43: waiting and rejecting a header write none of these registers; of a command, by its effect. -/
theorem onlyTheNamedCommandsWrite : Obligations.OnlyTheNamedCommandsWrite := by
  intro s t hstep
  rcases step_next hstep with ⟨_, rfl⟩ | ⟨_, rest, _, rfl⟩ | ⟨i, rest, hfetch, h⟩
  · simp
  · simp
  · refine ⟨fun hne => ⟨i, rest, hfetch, h.creates_of_profile_ne hne⟩,
      fun hne => ⟨i, rest, hfetch, h.creates_or_tunes_of_active_ne hne⟩,
      fun hne => ⟨i, rest, hfetch, ?_⟩, h.configured_of_configured⟩
    rintro rfl
    exact hne h.digest_reg

end Sys2Proof.Machine
end

section
/-! PROOFS. Row 0 of the table is linear over XOR in its index (R143 step 1). -/

namespace Sys2Proof.Machine

theorem rev8_xor (a b : Byte) : rev8 (a ^^^ b) = rev8 a ^^^ rev8 b := by
  refine BitVec.eq_of_getLsbD_eq fun i hi => ?_
  simp only [rev8, BitVec.getLsbD_reverse, BitVec.getMsbD_xor, BitVec.getLsbD_xor]

theorem topByte_xor (P : Profile) (a b : Byte) : topByte P (a ^^^ b) = topByte P a ^^^ topByte P b := by
  unfold topByte
  split
  · rw [rev8_xor, BitVec.setWidth_xor, shlW_xor]
  · rw [BitVec.setWidth_xor, shlW_xor]

theorem bitStep_eq (P : Profile) (r : Word) :
    bitStep P r = shlW P.width r 1 ^^^ (if r.getLsbD (P.width - 1) then P.poly else 0#64) := by
  unfold bitStep
  split
  · rfl
  · rw [BitVec.xor_zero]

theorem bitStep_xor (P : Profile) (a b : Word) : bitStep P (a ^^^ b) = bitStep P a ^^^ bitStep P b := by
  have hpoly : ∀ x y : Bool, (if x ^^ y then P.poly else 0#64) =
      (if x then P.poly else 0#64) ^^^ (if y then P.poly else 0#64) := fun x y => by
    cases x <;> cases y <;> simp
  rw [bitStep_eq, bitStep_eq, bitStep_eq, BitVec.getLsbD_xor, hpoly, shlW_xor]
  ac_rfl

theorem bitSteps_xor (P : Profile) : ∀ (n : Nat) (a b : Word), bitSteps P n (a ^^^ b) = bitSteps P n a ^^^ bitSteps P n b
  | 0, _, _ => rfl
  | n + 1, a, b => by simp only [bitSteps, bitStep_xor, bitSteps_xor P n]

theorem rowZeroEntry_xor (P : Profile) (a b : Byte) :
    rowZeroEntry P (a ^^^ b) = rowZeroEntry P a ^^^ rowZeroEntry P b := by
  simp only [rowZeroEntry, topByte_xor, bitSteps_xor]
  split
  · exact revW_xor _ _ _
  · rfl

end Sys2Proof.Machine
end

section
/-! PROOFS. The byte kernel over a list of bytes: what it absorbs of the register, and the XOR of table entries it gives
(R143 steps 2 to 5). -/

namespace Sys2Proof.Machine

/-! ### The register's bytes as they leave it -/

/-- The byte of the register that the next input byte is XORed with. -/
def leadByte (P : Profile) (r : Word) : Byte := if P.refin then lowByte r else lowByte (r >>> (P.width - 8))

/-- The register when its leading byte has left it. -/
def dropByte (P : Profile) (r : Word) : Word := if P.refin then r >>> 8 else shlW P.width r 8

/-- The bytes of a message, XORed with the bytes that leave the register meanwhile. -/
def absorbBytes (P : Profile) : Word → List Byte → List Byte
  | _, [] => []
  | r, v :: vs => (v ^^^ leadByte P r) :: absorbBytes P (dropByte P r) vs

theorem lowByte_xor (a b : Word) : lowByte (a ^^^ b) = lowByte a ^^^ lowByte b := BitVec.setWidth_xor

@[simp] theorem lowByte_zero : lowByte 0#64 = 0#8 := rfl

@[simp] theorem lowByte_setWidth (v : Byte) : lowByte (v.setWidth 64) = v := by
  simp [lowByte]

@[simp] theorem shlW_zero (w s : Nat) : shlW w 0#64 s = 0#64 := by simp [shlW, truncW]

@[simp] theorem leadByte_zero (P : Profile) : leadByte P 0#64 = 0#8 := by simp [leadByte]

@[simp] theorem dropByte_zero (P : Profile) : dropByte P 0#64 = 0#64 := by simp [dropByte]

theorem leadByte_xor (P : Profile) (a b : Word) : leadByte P (a ^^^ b) = leadByte P a ^^^ leadByte P b := by
  unfold leadByte
  split
  · exact lowByte_xor a b
  · rw [BitVec.ushiftRight_xor_distrib, lowByte_xor]

theorem dropByte_xor (P : Profile) (a b : Word) : dropByte P (a ^^^ b) = dropByte P a ^^^ dropByte P b := by
  unfold dropByte
  split
  · exact BitVec.ushiftRight_xor_distrib a b 8
  · exact shlW_xor _ _ _ _

/-- A register of 0 absorbs nothing. -/
@[simp] theorem absorbBytes_zero (P : Profile) : ∀ vs : List Byte, absorbBytes P 0#64 vs = vs
  | [] => rfl
  | v :: vs => by simp [absorbBytes, absorbBytes_zero P vs]

@[simp] theorem absorbBytes_length (P : Profile) : ∀ (r : Word) (vs : List Byte), (absorbBytes P r vs).length = vs.length
  | _, [] => rfl
  | r, v :: vs => by simp [absorbBytes, absorbBytes_length P (dropByte P r) vs]

/-- The byte kernel's step in these terms, whatever the table (R131). -/
theorem byteStep_eq (P : Profile) (T : Table) (r : Word) (v : Byte) :
    byteStep P T r v = dropByte P r ^^^ tableGet T 0 (v ^^^ leadByte P r) := by
  unfold byteStep dropByte leadByte
  split <;> rw [lowByte_xor, lowByte_setWidth, BitVec.xor_comm v]

/-- Part of the register may be absorbed into the message instead, whatever the table. -/
theorem foldl_byteStep_xor_eq_absorbBytes (P : Profile) (T : Table) : ∀ (vs : List Byte) (a c : Word),
    vs.foldl (byteStep P T) (a ^^^ c) = (dropByte P)^[vs.length] a ^^^ (absorbBytes P a vs).foldl (byteStep P T) c
  | [], _, _ => rfl
  | v :: vs, a, c => by
    have hstep : byteStep P T (a ^^^ c) v = dropByte P a ^^^ byteStep P T c (v ^^^ leadByte P a) := by
      simp only [byteStep_eq, dropByte_xor, leadByte_xor, BitVec.xor_assoc]
    rw [List.foldl_cons, hstep, foldl_byteStep_xor_eq_absorbBytes P T vs]
    rfl

/-! ### Linearity of the byte kernel -/

/-- The register after one byte of zero (R143's `Z`). -/
def advance (P : Profile) (r : Word) : Word := byteStep P (tableOf P) r 0

theorem byteStep_xor (P : Profile) (a c : Word) (v : Byte) :
    byteStep P (tableOf P) (a ^^^ c) v = advance P a ^^^ byteStep P (tableOf P) c v := by
  simp only [advance, byteStep_eq, dropByte_xor, leadByte_xor, tableGet_rowZero, rowZeroEntry_xor, BitVec.ofNat_eq_ofNat,
    BitVec.zero_xor]
  ac_rfl

/-- Registers add up: one of the two sees the message, the other as many bytes of zero. -/
theorem foldl_byteStep_xor (P : Profile) : ∀ (vs : List Byte) (a c : Word),
    vs.foldl (byteStep P (tableOf P)) (a ^^^ c) =
      (advance P)^[vs.length] a ^^^ vs.foldl (byteStep P (tableOf P)) c
  | [], _, _ => rfl
  | v :: vs, a, c => by
    rw [List.foldl_cons, byteStep_xor, foldl_byteStep_xor P vs]
    rfl

/-! ### The XOR of a message's table entries -/

/-- Each byte looked up in the row of how many bytes follow it, and the entries XORed (R143 step 4). -/
def tableXor (T : Table) : List Byte → Word
  | [] => 0
  | v :: vs => tableGet T vs.length v ^^^ tableXor T vs

/-- Each row is the row before it, advanced (R93). -/
theorem tableGet_succ_eq_advance (P : Profile) {j : Nat} (hj : j + 1 < 32) (v : Byte) :
    tableGet (tableOf P) (j + 1) v = advance P (tableGet (tableOf P) j v) := by
  rw [tableGet_succ P hj, nextEntry_rowZero, advance, byteStep]
  simp [tableGet_rowZero]

theorem tableGet_eq_advance_iterate (P : Profile) (v : Byte) :
    ∀ {j : Nat}, j < 32 → tableGet (tableOf P) j v = (advance P)^[j] (tableGet (tableOf P) 0 v)
  | 0, _ => rfl
  | j + 1, hj => by
    rw [tableGet_succ_eq_advance P hj, tableGet_eq_advance_iterate P v (by omega), Function.iterate_succ_apply']

/-- From a register of 0, up to 32 bytes give the XOR of their entries (R143 step 4). -/
theorem foldl_byteStep_zero_eq_tableXor (P : Profile) : ∀ {vs : List Byte}, vs.length ≤ 32 →
    vs.foldl (byteStep P (tableOf P)) 0 = tableXor (tableOf P) vs
  | [], _ => rfl
  | v :: vs, h => by
    have hv : byteStep P (tableOf P) 0 v = tableGet (tableOf P) 0 v ^^^ 0 := by simp [byteStep_eq]
    have hlen : vs.length < 32 := h
    rw [List.foldl_cons, hv, foldl_byteStep_xor, ← tableGet_eq_advance_iterate P v hlen,
      foldl_byteStep_zero_eq_tableXor P (by omega), tableXor]

end Sys2Proof.Machine
end

section
/-! PROOFS. One block of a word kernel in byte terms (R132, R133, R138), and with it kernel equivalence (R142, R143). -/

namespace Sys2Proof.Machine

/-! ### The bytes of a block's words -/

/-- The four bytes of a word in the order of their addresses. -/
def bytesOfWord (w : HalfWord) : List Byte := [wordByte w 0, wordByte w 1, wordByte w 2, wordByte w 3]

theorem bytesOfWord_append (b3 b2 b1 b0 : Byte) : bytesOfWord (b3 ++ b2 ++ b1 ++ b0) = [b0, b1, b2, b3] := by
  simp only [bytesOfWord, List.cons.injEq, and_true]
  refine ⟨?_, ?_, ?_, ?_⟩
  all_goals
    refine BitVec.eq_of_getLsbD_eq fun i hi => ?_
    simp only [wordByte, BitVec.getLsbD_setWidth, BitVec.getLsbD_ushiftRight, BitVec.getLsbD_append]
    grind

/-- A block's bytes are its span's. -/
theorem flatMap_bytesOfWord_blockWords (m : Memory) :
    ∀ (n ptr : Nat), (blockWords m ptr n).flatMap bytesOfWord = m.span ptr (4 * n)
  | 0, _ => rfl
  | n + 1, ptr => by
    rw [blockWords, List.flatMap_cons, flatMap_bytesOfWord_blockWords m n, Memory.readWord, bytesOfWord_append]
    rfl

theorem length_flatMap_bytesOfWord (ws : List HalfWord) : (ws.flatMap bytesOfWord).length = 4 * ws.length := by
  induction ws with
  | nil => rfl
  | cons w ws ih =>
    rw [List.flatMap_cons, List.length_append, ih, List.length_cons, Nat.mul_succ, Nat.add_comm]
    rfl

/-- The fold of a block's words is the XOR of its bytes' entries: the rows of R133 are those of how many bytes follow. -/
theorem foldWords_eq_tableXor (T : Table) : ∀ ws : List HalfWord, foldWords T ws = tableXor T (ws.flatMap bytesOfWord)
  | [] => rfl
  | w :: ws => by
    simp only [foldWords, List.flatMap_cons, bytesOfWord, List.cons_append, List.nil_append, tableXor, List.length_cons,
      length_flatMap_bytesOfWord, foldWords_eq_tableXor T ws, BitVec.xor_assoc]

/-! ### The register's bytes in the order of R132 -/

theorem shlW_shlW (w : Nat) (a : Word) (s s' : Nat) : shlW w (shlW w a s) s' = shlW w a (s + s') := by
  refine BitVec.eq_of_getLsbD_eq fun i hi => ?_
  simp only [getLsbD_shlW]
  grind

/-- A register of W bits after `k` bytes have left it. -/
theorem dropByte_iterate {P : Profile} {r : Word} (hr : r.toNat < 2 ^ P.width) (k : Nat) :
    (dropByte P)^[k] r = if P.refin then r >>> (8 * k) else shlW P.width r (8 * k) := by
  induction k with
  | zero => simp [shlW, truncW_of_lt hr]
  | succ k ih =>
    rw [Function.iterate_succ_apply', ih, dropByte]
    split
    · rw [← BitVec.shiftRight_add]; rfl
    · rw [shlW_shlW]; rfl

/-- After W bits have left it nothing is left. -/
theorem dropByte_iterate_eq_zero {P : Profile} {r : Word} (hr : r.toNat < 2 ^ P.width) {k : Nat} (hk : P.width ≤ 8 * k) :
    (dropByte P)^[k] r = 0#64 := by
  rw [dropByte_iterate hr]
  refine BitVec.eq_of_getLsbD_eq fun i hi => ?_
  split
  · simpa using lt_two_pow_iff.1 hr (8 * k + i) (by omega)
  · rw [getLsbD_shlW]
    have : i < P.width → i < 8 * k := by omega
    grind

theorem getLsbD_swapBytes : ∀ {n : Nat} (_ : n ≤ 8) (a : Word) (i : Nat),
    (swapBytes n a).getLsbD i = (decide (i < 8 * n) && a.getLsbD (8 * (n - 1 - i / 8) + i % 8))
  | 0, _, _, _ => by simp [swapBytes]
  | n + 1, hn, a, i => by
    have h255 : ∀ j, (0xFF : Word).getLsbD j = decide (j < 8) := fun j => by
      simpa [BitVec.getLsbD] using Nat.testBit_two_pow_sub_one 8 j
    rw [swapBytes, BitVec.getLsbD_or, BitVec.getLsbD_shiftLeft, BitVec.getLsbD_and, h255,
      getLsbD_swapBytes (by omega), BitVec.getLsbD_ushiftRight]
    rcases Nat.lt_or_ge i (8 * n) with h | h
    · have hidx : 8 + (8 * (n - 1 - i / 8) + i % 8) = 8 * (n + 1 - 1 - i / 8) + i % 8 := by omega
      rw [hidx]
      simp [h]; omega
    · have hidx : i < 8 * (n + 1) → 8 * (n + 1 - 1 - i / 8) + i % 8 = i - 8 * n := by omega
      by_cases h' : i < 8 * (n + 1)
      · have h64 : i < 64 := by omega
        have h8 : i - 8 * n < 8 := by omega
        rw [hidx h']
        simp [h', Nat.not_lt.2 h, h64, h8]
      · have : ¬ i - 8 * n < 8 := by omega
        simp [h', Nat.not_lt.2 h, this]

theorem Profile.Legal.width_eq {P : Profile} (hP : P.Legal) : ∃ m, P.width = 8 * m ∧ 1 ≤ m ∧ m ≤ 8 := by
  rcases hP.1 with h | h | h
  exacts [⟨2, h, by decide⟩, ⟨4, h, by decide⟩, ⟨8, h, by decide⟩]

/-- The top byte after `k` bytes have been shifted out is byte `k` of the register in reverse order. -/
theorem topByte_shlW_eq_byte_bswapW {m : Nat} (h1 : 1 ≤ m) (h8 : m ≤ 8) (r : Word) (k : Nat) :
    lowByte (shlW (8 * m) r (8 * k) >>> (8 * m - 8)) = lowByte (bswapW (8 * m) r >>> (8 * k)) := by
  refine BitVec.eq_of_getLsbD_eq fun i hi => ?_
  simp only [lowByte, BitVec.getLsbD_setWidth, BitVec.getLsbD_ushiftRight, getLsbD_shlW, bswapW,
    Nat.mul_div_cancel_left m (by decide : 0 < 8), getLsbD_swapBytes h8]
  by_cases hk : k < m
  · have hidx : 8 * (m - 1 - (8 * k + i) / 8) + (8 * k + i) % 8 = 8 * m - 8 + i - 8 * k := by omega
    have hwidth : 8 * m - 8 + i < 8 * m := by omega
    have h64 : 8 * m - 8 + i < 64 := by omega
    have hshift : ¬ 8 * m - 8 + i < 8 * k := by omega
    have hbyte : 8 * k + i < 8 * m := by omega
    rw [hidx]
    simp [hwidth, h64, hshift, hbyte]
  · have hshift : 8 * m - 8 + i < 8 * k := by omega
    have hbyte : ¬ 8 * k + i < 8 * m := by omega
    simp [hshift, hbyte]

/-- The byte that leaves the register at step `k` is byte `k` of the register as the word kernels absorb it (R132). -/
theorem leadByte_dropByte_iterate {P : Profile} {r : Word} (hP : P.Legal) (hr : r.toNat < 2 ^ P.width) (k : Nat) :
    leadByte P ((dropByte P)^[k] r) = lowByte (absorbed P r >>> (8 * k)) := by
  rw [dropByte_iterate hr, leadByte, absorbed]
  split
  · rfl
  · obtain ⟨m, hm, h1, h8⟩ := hP.width_eq
    rw [hm]
    exact topByte_shlW_eq_byte_bswapW h1 h8 r k

/-! ### The absorb step and the carry -/

theorem wordByte_xor_setWidth (w : HalfWord) (a : Word) {b : Nat} (hb : b < 4) :
    wordByte (w ^^^ a.setWidth 32) b = wordByte w b ^^^ lowByte (a >>> (8 * b)) := by
  refine BitVec.eq_of_getLsbD_eq fun i hi => ?_
  have h : 8 * b + i < 32 := by omega
  simp [wordByte, lowByte, hi, h]

/-- Four bytes absorbed are one word absorbed, from any byte of the register on. -/
theorem absorbBytes_bytesOfWord {P : Profile} {r : Word} (hP : P.Legal) (hr : r.toNat < 2 ^ P.width) (k : Nat)
    (w : HalfWord) (vs : List Byte) :
    absorbBytes P ((dropByte P)^[k] r) (bytesOfWord w ++ vs) =
      bytesOfWord (w ^^^ (absorbed P r >>> (8 * k)).setWidth 32) ++ absorbBytes P ((dropByte P)^[k + 4] r) vs := by
  have hbyte : ∀ b, b < 4 → wordByte w b ^^^ leadByte P ((dropByte P)^[k + b] r) =
      wordByte (w ^^^ (absorbed P r >>> (8 * k)).setWidth 32) b := fun b hb => by
    rw [wordByte_xor_setWidth w _ hb, leadByte_dropByte_iterate hP hr, ← BitVec.shiftRight_add, Nat.mul_add]
  simp only [bytesOfWord, List.cons_append, List.nil_append, absorbBytes, ← Function.iterate_succ_apply' (dropByte P)]
  rw [← hbyte 0 (by decide), ← hbyte 1 (by decide), ← hbyte 2 (by decide), ← hbyte 3 (by decide)]
  rfl

/-- The absorb step of the word kernels is what the byte kernel absorbs. -/
theorem absorbBytes_flatMap_bytesOfWord {P : Profile} {r : Word} (hP : P.Legal) (hr : r.toNat < 2 ^ P.width)
    (ws : List HalfWord) :
    absorbBytes P r (ws.flatMap bytesOfWord) = (absorb P r ws).flatMap bytesOfWord := by
  match ws with
  | [] => rfl
  | w :: ws =>
    have hfirst := absorbBytes_bytesOfWord hP hr 0 w (ws.flatMap bytesOfWord)
    have hA : absorbed P r >>> (8 * 0) = absorbed P r := BitVec.ushiftRight_zero _
    rw [Function.iterate_zero_apply, hA, Nat.zero_add] at hfirst
    rw [List.flatMap_cons, hfirst]
    by_cases hw : P.width = 64
    · match ws with
      | [] => simp [absorb, hw, absorbBytes]
      | w' :: ws =>
        have hsecond := absorbBytes_bytesOfWord hP hr 4 w' (ws.flatMap bytesOfWord)
        rw [dropByte_iterate_eq_zero (k := 4 + 4) hr (by omega), absorbBytes_zero] at hsecond
        rw [List.flatMap_cons, hsecond]
        simp [absorb, hw]
    · have hw32 : P.width ≤ 8 * 4 := by have := hP.1; omega
      rw [dropByte_iterate_eq_zero hr hw32, absorbBytes_zero]
      simp [absorb, hw]

/-- The carry is what the block's bytes leave of the register (R138). -/
theorem carry_eq_dropByte_iterate {P : Profile} {r : Word} (hP : P.Legal) (hr : r.toNat < 2 ^ P.width) {n : Nat}
    (hn : 1 ≤ n) : carry P n r = (dropByte P)^[4 * n] r := by
  unfold carry
  split
  case isTrue h => rw [dropByte_iterate hr, h.1, h.2]
  case isFalse h =>
    have hwidth : P.width ≤ 8 * (4 * n) := by have := hP.1; omega
    exact (dropByte_iterate_eq_zero hr hwidth).symm

/-! ### Blocks, spans, kernels -/

/-- A block of up to eight words does to the register what the byte kernel does over its bytes. -/
theorem foldBlock_eq_byteKernel {P : Profile} {r : Word} (hP : P.Legal) (hr : r.toNat < 2 ^ P.width) (m : Memory)
    {n : Nat} (hn : 1 ≤ n) (hn' : n ≤ 8) (ptr : Nat) :
    foldBlock P (tableOf P) m n r ptr = byteKernel P (tableOf P) m r ptr (4 * n) := by
  have hlen : (absorbBytes P r (m.span ptr (4 * n))).length ≤ 32 := by
    rw [absorbBytes_length, Memory.span_length]; omega
  have habsorb := foldl_byteStep_xor_eq_absorbBytes P (tableOf P) (m.span ptr (4 * n)) r 0#64
  rw [BitVec.xor_zero, Memory.span_length] at habsorb
  rw [foldBlock, carry_eq_dropByte_iterate hP hr hn, foldWords_eq_tableXor, ← absorbBytes_flatMap_bytesOfWord hP hr,
    flatMap_bytesOfWord_blockWords, ← foldl_byteStep_zero_eq_tableXor P hlen, byteKernel_eq_foldl]
  exact habsorb.symm

theorem foldBlocks_eq_byteKernel {P : Profile} (hP : P.Legal) (m : Memory) {n : Nat} (hn : 1 ≤ n) (hn' : n ≤ 8) :
    ∀ (blocks : Nat) {r : Word} (ptr : Nat), r.toNat < 2 ^ P.width →
      foldBlocks P (tableOf P) m n r ptr blocks = byteKernel P (tableOf P) m r ptr (4 * n * blocks)
  | 0, _, _, _ => rfl
  | blocks + 1, r, ptr, hr => by
    have ⟨_, hpoly, _, _⟩ := hP
    rw [foldBlocks, foldBlock_eq_byteKernel hP hr m hn hn',
      foldBlocks_eq_byteKernel hP m hn hn' blocks _ (byteKernel_lt hpoly m _ _ hr), ← byteKernel_add, Nat.mul_succ,
      Nat.add_comm (4 * n)]

theorem wordKernel_eq_byteKernel {P : Profile} {r : Word} (hP : P.Legal) (hr : r.toNat < 2 ^ P.width) (m : Memory)
    {n : Nat} (hn : 1 ≤ n) (hn' : n ≤ 8) (addr len : Nat) :
    wordKernel n P (tableOf P) m r addr len = byteKernel P (tableOf P) m r addr len := by
  simp only [wordKernel]
  rw [foldBlocks_eq_byteKernel hP m hn hn' _ _ hr, ← byteKernel_add, Nat.div_add_mod]

/-- Every kernel gives what the byte kernel gives (R142). -/
theorem runKernel_eq_byteKernel {P : Profile} {r : Word} (hP : P.Legal) (hr : r.toNat < 2 ^ P.width) (k : Kernel)
    (m : Memory) (addr len : Nat) :
    runKernel k P (tableOf P) m r addr len = byteKernel P (tableOf P) m r addr len := by
  cases k
  · rfl
  all_goals exact wordKernel_eq_byteKernel hP hr m (by decide) (by decide) addr len

end Sys2Proof.Machine
end

section
/-! PROOFS. `ACTIVE` changes no result (R24): O52. -/

namespace Sys2Proof.Machine

/-- Under the invariant it does not matter which kernel a consume command runs. -/
theorem consumeWith_kernel_irrelevant {s : State} (hs : s.Inv) (k k' : Kernel) (addr len : Word) :
    consumeWith k addr len s = consumeWith k' addr len s := by
  cases hc : s.configured with
  | false => rw [consumeWith_of_not_configured hc, consumeWith_of_not_configured hc]
  | true =>
    obtain ⟨hP, hT, hr⟩ := hs.1 hc
    simp only [consumeWith, hT, runKernel_eq_byteKernel hP hr]

/-- The consume wrapper neither reads nor writes `ACTIVE` (R112). -/
theorem consumeWith_with_active {k : Kernel} {addr len : Word} {s t : State} (h : consumeWith k addr len s = .next t)
    (k' : Kernel) : consumeWith k addr len { s with active := k' } = .next { t with active := k' } := by
  unfold consumeWith at h ⊢
  split at h
  · cases h; exact if_pos ‹_›
  · rw [if_neg ‹_›]
    split at h
    · cases h; exact if_pos ‹_›
    · rw [if_neg ‹_›]
      split at h
      · cases h
      · cases h; exact if_neg ‹_›

/-- Settles O52, by kernel equivalence: whatever kernels the two blocks name, the runs are of one kernel. -/
theorem activeKernelChangesNoResult : Obligations.ActiveKernelChangesNoResult := by
  intro s t k addr len hs i hi h
  obtain ⟨κ, hκ⟩ := exec_consumeForms hi s
  obtain ⟨κ', hκ'⟩ := exec_consumeForms hi { s with active := k }
  rw [hκ']
  rw [hκ, consumeWith_kernel_irrelevant hs κ κ'] at h
  exact consumeWith_with_active h k

end Sys2Proof.Machine
end

section
/-! PROOFS. `MEM` (R40, R43, R46): word reads (O48), the host's writes (O49), and that no step writes it (O44). -/

namespace Sys2Proof.Machine

/-- The value of a concatenation: the low part, and the high part times a power of two. -/
theorem toNat_append_eq_add {m n : Nat} (x : BitVec m) (y : BitVec n) :
    (x ++ y).toNat = y.toNat + x.toNat * 2 ^ n := by
  rw [BitVec.toNat_append, ← Nat.shiftLeft_add_eq_or_of_lt y.isLt, Nat.shiftLeft_eq, Nat.add_comm]

/-- Settles O48, by the value of a concatenation three times. -/
theorem wordReadsAreLittleEndian : Obligations.WordReadsAreLittleEndian := by
  intro m a
  simp only [Memory.readWord, toNat_append_eq_add]
  omega

/-- Settles O49: a host write is a write of the memory, read back as `Memory.read_write` says. -/
theorem hostWritesAreReadBack : Obligations.HostWritesAreReadBack := by
  intro s addr v hs a
  rw [State.hostWrite_mem]
  exact Memory.read_write hs addr.toNat v a

/-- `MEM` and what stands for the platform's parameters are the same in two states. -/
def State.SamePlatform (s t : State) : Prop :=
  t.mem = s.mem ∧ t.unadmitted = s.unadmitted ∧ t.tuneBufMax = s.tuneBufMax

theorem Ends.samePlatform {i : Instr} {s t : State} (h : Ends i s t) : s.SamePlatform t := by
  rcases h with ⟨f, rfl⟩ | h
  · exact ⟨rfl, rfl, rfl⟩
  · cases h <;> exact ⟨rfl, rfl, rfl⟩

theorem step_samePlatform {s t : State} (h : step s = .next t) : s.SamePlatform t := by
  rcases step_next h with ⟨_, rfl⟩ | ⟨_, rest, _, rfl⟩ | ⟨i, rest, _, h⟩
  · exact ⟨rfl, rfl, rfl⟩
  · exact ⟨rfl, rfl, rfl⟩
  · exact h.samePlatform

/-- Settles O44: waiting, rejecting a header and every end of a command leave the memory itself as it was. -/
theorem noStepWritesMemory : Obligations.NoStepWritesMemory := by
  intro s t h
  obtain ⟨hmem, hadmit, hbuf⟩ := step_samePlatform h
  exact ⟨fun a => by rw [hmem], hadmit, hbuf⟩

end Sys2Proof.Machine
end

section
/-! PROOFS. Admission of spans and the one stop (R47): O37, O38. -/

namespace Sys2Proof.Machine

/-! ### What a set of spans holds -/

/-- A span is out of a region's set when none of its bytes is in the region. -/
theorem SpanSet.touching_has_eq_false_iff {base size addr len : Nat} :
    (SpanSet.touching base size).has addr len = false ↔
      ∀ a, addr ≤ a → a < addr + len → ¬ (base ≤ a ∧ a < base + size) := by
  simp only [SpanSet.has, ← Bool.not_eq_true, Bool.and_eq_true, decide_eq_true_eq]
  constructor
  · intro h a _ _ _
    omega
  · -- the first byte of the span that is not below the region would be in both
    intro h hhas
    exact h (max addr base) (by omega) (by omega) (by omega)

theorem SpanSet.within_has_eq_false_iff {addrLo addrHi lenLo lenHi addr len : Nat} :
    (SpanSet.within addrLo addrHi lenLo lenHi).has addr len = false ↔
      ¬ ((addrLo ≤ addr ∧ addr ≤ addrHi) ∧ lenLo ≤ len ∧ len ≤ lenHi) := by
  simp only [SpanSet.has, ← Bool.not_eq_true, Bool.and_eq_true, decide_eq_true_eq, and_assoc]

/-- Settles O38, set by set of the list. -/
theorem admittedSpansHaveNoUnreadableByte : Obligations.AdmittedSpansHaveNoUnreadableByte := by
  intro u addr len
  rw [memAdmit_iff]
  constructor
  · intro h
    exact ⟨fun base size hS => SpanSet.touching_has_eq_false_iff.1 (h _ hS),
      fun addrLo addrHi lenLo lenHi hS => SpanSet.within_has_eq_false_iff.1 (h _ hS)⟩
  · rintro ⟨htouching, hwithin⟩ S hS
    cases S with
    | touching base size => exact SpanSet.touching_has_eq_false_iff.2 (htouching base size hS)
    | within addrLo addrHi lenLo lenHi =>
      exact SpanSet.within_has_eq_false_iff.2 (hwithin addrLo addrHi lenLo lenHi hS)

/-! ### Which commands stop -/

/-- The command consumes a span inside the address space that the platform refuses, on a configured block. -/
def ConsumesUnadmitted (i : Instr) (s : State) : Prop :=
  ∃ addr len, i ∈ consumeForms addr len ∧ s.configured = true ∧ addr.toNat + len.toNat ≤ 2 ^ 64 ∧
    memAdmit s.unadmitted addr len = false

theorem exec_of_consumesUnadmitted {i : Instr} {s : State} (h : ConsumesUnadmitted i s) :
    exec i s = .fault .spanNotAdmitted := by
  obtain ⟨addr, len, hi, hc, hr, ha⟩ := h
  obtain ⟨k, hk⟩ := exec_consumeForms hi s
  rw [hk, consumeWith_of_unadmitted hc hr ha]

theorem consume_answers_or_unadmitted {i : Instr} (addr len : Word) (hi : i ∈ consumeForms addr len) (s : State) :
    (∃ t, exec i s = .next t) ∨ ConsumesUnadmitted i s := by
  obtain ⟨k, hk⟩ := exec_consumeForms hi s
  rw [hk]
  cases hc : s.configured with
  | false => exact .inl ⟨_, consumeWith_of_not_configured hc⟩
  | true =>
    rcases Nat.lt_or_ge (2 ^ 64) (addr.toNat + len.toNat) with hr | hr
    · exact .inl ⟨_, consumeWith_of_past_top hc hr⟩
    · cases ha : memAdmit s.unadmitted addr len with
      | false => exact .inr ⟨addr, len, hi, hc, hr, ha⟩
      | true => exact .inl ⟨_, consumeWith_of_reads hc ⟨hr, ha⟩⟩

theorem execTune_answers (ds dr : Bool) (size reps : Word) (s : State) :
    ∃ t, execTune ds dr size reps s = .next t := by
  unfold execTune
  split
  · exact ⟨_, rfl⟩
  · split <;> exact ⟨_, rfl⟩

theorem exec_answers_of_not_needsEngine {i : Instr} (hi : i.needsEngine = false) (s : State) :
    ∃ t, exec i s = .next t := by
  rcases exec_faults_or_creates hi with ⟨f, hf⟩ | ⟨P, hP⟩
  · exact ⟨_, hf s⟩
  · exact ⟨_, hP s⟩

/-- Every command gives a next state, but for a consume command over a span that is not admitted. -/
theorem exec_answers_or_unadmitted (i : Instr) (s : State) :
    (∃ t, exec i s = .next t) ∨ ConsumesUnadmitted i s := by
  cases i with
  | reset =>
    simp only [exec, execReset]
    split <;> exact .inl ⟨_, rfl⟩
  | digest =>
    simp only [exec, execDigest]
    split <;> exact .inl ⟨_, rfl⟩
  | tune ds dr size reps => exact .inl (execTune_answers ds dr size reps s)
  | consume addr len => exact consume_answers_or_unadmitted addr len (by simp [consumeForms]) s
  | consumekByte addr len => exact consume_answers_or_unadmitted addr len (by simp [consumeForms]) s
  | consumek1w addr len => exact consume_answers_or_unadmitted addr len (by simp [consumeForms]) s
  | consumek2w addr len => exact consume_answers_or_unadmitted addr len (by simp [consumeForms]) s
  | consumek4w addr len => exact consume_answers_or_unadmitted addr len (by simp [consumeForms]) s
  | consumek8w addr len => exact consume_answers_or_unadmitted addr len (by simp [consumeForms]) s
  | _ => exact .inl (exec_answers_of_not_needsEngine rfl s)

/-- Settles O37: a command that answers neither stops nor is refused, and the others stop by name. -/
theorem onlyUnadmittedSpansStop : Obligations.OnlyUnadmittedSpansStop := by
  intro i s
  rcases exec_answers_or_unadmitted i s with ⟨t, ht⟩ | h
  · refine ⟨fun r => by simp [ht], fun ⟨f, hf⟩ => ?_, fun h => ?_⟩
    · cases ht.symm.trans hf
    · cases ht.symm.trans (exec_of_consumesUnadmitted h)
  · have hstop := exec_of_consumesUnadmitted h
    exact ⟨fun r => by simp [hstop], fun _ => h, fun _ => ⟨_, hstop⟩⟩

end Sys2Proof.Machine
end

section
/-! PROOFS. The kernels read their span and nothing else of `MEM` (R41, R46): O30. -/

namespace Sys2Proof.Machine

/-! ### Memories that agree on a span -/

/-- The two memories have the same bytes at the addresses of the span. -/
def Memory.AgreeOn (m m' : Memory) (addr len : Nat) : Prop :=
  ∀ a, addr ≤ a → a < addr + len → m.read a = m'.read a

/-- They agree on every span inside it. -/
theorem Memory.AgreeOn.mono {m m' : Memory} {addr len addr' len' : Nat} (h : m.AgreeOn m' addr len)
    (hlo : addr ≤ addr') (hhi : addr' + len' ≤ addr + len) : m.AgreeOn m' addr' len' :=
  fun a ha ha' => h a (by omega) (by omega)

theorem Memory.AgreeOn.span_eq {m m' : Memory} {addr len : Nat} (h : m.AgreeOn m' addr len) :
    m.span addr len = m'.span addr len :=
  Memory.span_congr fun i hi => h (addr + i) (by omega) (by omega)

theorem Memory.AgreeOn.readWord_eq {m m' : Memory} {addr : Nat} (h : m.AgreeOn m' addr 4) :
    m.readWord addr = m'.readWord addr := by
  have hbyte : ∀ i, i < 4 → m.read (addr + i) = m'.read (addr + i) := fun i hi => h _ (by omega) (by omega)
  have h0 : m.read addr = m'.read addr := hbyte 0 (by decide)
  rw [Memory.readWord, Memory.readWord, h0, hbyte 1 (by decide), hbyte 2 (by decide), hbyte 3 (by decide)]

/-! ### The kernels on such memories -/

theorem byteKernel_eq_of_agreeOn {m m' : Memory} {addr len : Nat} (h : m.AgreeOn m' addr len) (P : Profile) (T : Table)
    (reg : Word) : byteKernel P T m reg addr len = byteKernel P T m' reg addr len := by
  rw [byteKernel_eq_foldl, byteKernel_eq_foldl, h.span_eq]

theorem blockWords_eq_of_agreeOn {m m' : Memory} :
    ∀ {n ptr : Nat}, m.AgreeOn m' ptr (4 * n) → blockWords m ptr n = blockWords m' ptr n
  | 0, _, _ => rfl
  | n + 1, ptr, h => by
    have hword := (h.mono (addr' := ptr) (len' := 4) (by omega) (by omega)).readWord_eq
    have hrest := blockWords_eq_of_agreeOn (n := n) (h.mono (addr' := ptr + 4) (by omega) (by omega))
    rw [blockWords, blockWords, hword, hrest]

theorem foldBlock_eq_of_agreeOn {m m' : Memory} {n ptr : Nat} (h : m.AgreeOn m' ptr (4 * n)) (P : Profile) (T : Table)
    (reg : Word) : foldBlock P T m n reg ptr = foldBlock P T m' n reg ptr := by
  rw [foldBlock, foldBlock, blockWords_eq_of_agreeOn h]

theorem foldBlocks_eq_of_agreeOn {m m' : Memory} (P : Profile) (T : Table) {n : Nat} :
    ∀ {blocks ptr : Nat} (reg : Word), m.AgreeOn m' ptr (4 * n * blocks) →
      foldBlocks P T m n reg ptr blocks = foldBlocks P T m' n reg ptr blocks
  | 0, _, _, _ => rfl
  | blocks + 1, ptr, reg, h => by
    rw [Nat.mul_succ] at h
    rw [foldBlocks, foldBlocks, foldBlock_eq_of_agreeOn (h.mono (by omega) (by omega)),
      foldBlocks_eq_of_agreeOn P T _ (h.mono (by omega) (by omega))]

/-- The blocks and the tail of a word kernel lie in its span, the last partial word too (R139). -/
theorem wordKernel_eq_of_agreeOn {m m' : Memory} {addr len : Nat} (h : m.AgreeOn m' addr len) (n : Nat) (P : Profile)
    (T : Table) (reg : Word) : wordKernel n P T m reg addr len = wordKernel n P T m' reg addr len := by
  have hlen := Nat.div_add_mod len (4 * n)
  simp only [wordKernel]
  rw [foldBlocks_eq_of_agreeOn P T reg (h.mono (by omega) (by omega)),
    byteKernel_eq_of_agreeOn (h.mono (by omega) (by omega))]

theorem runKernel_eq_of_agreeOn {m m' : Memory} {addr len : Nat} (h : m.AgreeOn m' addr len) (k : Kernel) (P : Profile)
    (T : Table) (reg : Word) : runKernel k P T m reg addr len = runKernel k P T m' reg addr len := by
  cases k
  · exact byteKernel_eq_of_agreeOn h P T reg
  all_goals exact wordKernel_eq_of_agreeOn h _ P T reg

/-! ### The consume commands on such memories -/

/-- A consume command is the wrapper with a kernel that the command and `ACTIVE` fix (R111, R112). -/
theorem exec_consumeForms_of_active {i : Instr} {addr len : Word} (hi : i ∈ consumeForms addr len) :
    ∃ kernel : Kernel → Kernel, ∀ s, exec i s = consumeWith (kernel s.active) addr len s := by
  simp only [consumeForms, List.mem_cons, List.not_mem_nil, or_false] at hi
  rcases hi with rfl | rfl | rfl | rfl | rfl | rfl
  · exact ⟨id, fun _ => rfl⟩
  · exact ⟨fun _ => .byte, fun _ => rfl⟩
  · exact ⟨fun _ => .w1, fun _ => rfl⟩
  · exact ⟨fun _ => .w2, fun _ => rfl⟩
  · exact ⟨fun _ => .w4, fun _ => rfl⟩
  · exact ⟨fun _ => .w8, fun _ => rfl⟩

/-- The consume wrapper's checks read no byte of `MEM`, and its kernel those of the span. -/
theorem consumeWith_with_mem {k : Kernel} {addr len : Word} {s t : State} {m : Memory}
    (hm : m.AgreeOn s.mem addr.toNat len.toNat) (h : consumeWith k addr len s = .next t) :
    consumeWith k addr len { s with mem := m } = .next { t with mem := m } := by
  have hengine : withEngine { s with mem := m } (spanFault addr len) = withEngine s (spanFault addr len) := rfl
  rw [consumeWith_eq] at h ⊢
  rw [hengine]
  cases hf : withEngine s (spanFault addr len) with
  | some f =>
    simp only [hf] at h ⊢
    cases h; rfl
  | none =>
    simp only [hf] at h ⊢
    split at h
    case isTrue ha =>
      cases h
      rw [if_pos ha, runKernel_eq_of_agreeOn hm]
      rfl
    case isFalse => cases h

/-- Settles O30: the wrapper runs the same kernel on both memories, and the kernels read their span alone. -/
theorem consumeReadsOnlyItsSpan : Obligations.ConsumeReadsOnlyItsSpan := by
  intro s t m addr len i hi hm h
  obtain ⟨kernel, hkernel⟩ := exec_consumeForms_of_active hi
  rw [hkernel] at h ⊢
  exact consumeWith_with_mem hm h

end Sys2Proof.Machine
end

section
/-! PROOFS. Header words by their fields, and which are legal (R61, R67): O5. -/

namespace Sys2Proof

/-! ### Header fields as masks -/

/-- The header bits `s .. s + n - 1`. -/
def fieldMask (s n : Nat) : Word := (BitVec.allOnes n).setWidth 64 <<< s

/-- What the mask of a field leaves of a header is the field, at its place. -/
theorem and_fieldMask (h : Word) (s n : Nat) :
    h &&& fieldMask s n = (h.extractLsb' s n).setWidth 64 <<< s := by
  refine BitVec.eq_of_getLsbD_eq fun i _ => ?_
  simp only [fieldMask, BitVec.getLsbD_and, BitVec.getLsbD_shiftLeft, BitVec.getLsbD_setWidth, BitVec.getLsbD_extractLsb',
    BitVec.getLsbD_allOnes]
  rcases Nat.lt_or_ge i s with hs | hs
  · simp [hs]
  · rw [Nat.add_sub_cancel' hs]
    ac_rfl

theorem extractLsb'_and_fieldMask (h : Word) {s n : Nat} (hn : s + n ≤ 64) :
    (h &&& fieldMask s n).extractLsb' s n = h.extractLsb' s n := by
  refine BitVec.eq_of_getLsbD_eq fun i hi => ?_
  have hsi : s + i < 64 := by omega
  simp [fieldMask, hi, hsi]

theorem and_fieldMask_eq_zero_iff {h : Word} {s n : Nat} (hn : s + n ≤ 64) :
    h &&& fieldMask s n = 0 ↔ h.extractLsb' s n = 0 := by
  constructor
  · intro hz
    rw [← extractLsb'_and_fieldMask h hn, hz]
    exact BitVec.extractLsb'_zero
  · intro hz
    rw [and_fieldMask, hz]
    simp

/-- A field of one bit. -/
theorem extractLsb'_one (h : Word) (n : Nat) : h.extractLsb' n 1 = BitVec.ofBool (h.getLsbD n) := by
  refine BitVec.eq_of_getLsbD_eq fun i hi => ?_
  obtain rfl : i = 0 := by omega
  simp

/-- A flag is a field of one bit. -/
theorem flagBit_eq (b : Bool) (n : Nat) : flagBit b n = (BitVec.ofBool b).setWidth 64 <<< n := by
  cases b with
  | false => simp [flagBit]
  | true => rfl

theorem and_fieldMask_one (h : Word) (n : Nat) : h &&& fieldMask n 1 = flagBit (h.getLsbD n) n := by
  rw [and_fieldMask, extractLsb'_one, flagBit_eq]

theorem and_fieldMask_one_eq_zero_iff {h : Word} {n : Nat} (hn : n < 64) :
    h &&& fieldMask n 1 = 0 ↔ h.getLsbD n = false := by
  rw [and_fieldMask_eq_zero_iff hn, extractLsb'_one]
  cases h.getLsbD n <;> simp

theorem and_or_eq_zero_iff {h a b : Word} : h &&& (a ||| b) = 0 ↔ h &&& a = 0 ∧ h &&& b = 0 := by
  rw [BitVec.and_or_distrib_left]
  exact BitVec.or_eq_zero_iff

/-- A header is what a mask leaves of it and what the rest leaves. -/
theorem eq_and_or_and_not (h m : Word) : h = (h &&& m) ||| (h &&& ~~~m) := by
  rw [← BitVec.and_or_distrib_left, BitVec.or_not_self, BitVec.and_allOnes]

/-! ### The four tests -/

theorem isOpcode_iff_mem {op : BitVec 8} :
    isOpcode op = true ↔ op ∈ [0x01, 0x02, 0x03, 0x04, 0x05, 0x06, 0x10, 0x11, 0x12, 0x13, 0x14] := by
  revert op
  decide

theorem and_reservedBits_ne_zero_iff {h : Word} :
    h &&& reservedBits ≠ 0 ↔ h.extractLsb' 13 3 ≠ 0 ∨ h.extractLsb' 26 38 ≠ 0 := by
  have hmask : reservedBits = fieldMask 13 3 ||| fieldMask 26 38 := by decide
  rw [hmask, ne_eq, and_or_eq_zero_iff, and_fieldMask_eq_zero_iff (by decide), and_fieldMask_eq_zero_iff (by decide),
    not_and_or]

/-- The fields an opcode does not use, as a mask (R61, "Used by"). -/
def unusedFields (op : BitVec 8) : Word :=
  (if op = 0x01 ∨ op = 0x04 then 0 else fieldMask 8 3) |||
    ((if op = 0x01 then 0 else fieldMask 11 1 ||| (fieldMask 12 1 ||| fieldMask 16 8)) |||
      (if op = 0x06 then 0 else fieldMask 24 1 ||| fieldMask 25 1))

theorem not_usedBits_eq (op : BitVec 8) : ~~~(0xFF ||| usedBits op) = reservedBits ||| unusedFields op := by
  by_cases h1 : op = 0x01
  · subst h1; decide
  by_cases h4 : op = 0x04
  · subst h4; decide
  by_cases h6 : op = 0x06
  · subst h6; decide
  simp only [usedBits, unusedFields, h1, h4, h6, if_false, or_self]
  decide

theorem and_ite_zero_eq_zero_iff {h m : Word} {p : Prop} [Decidable p] :
    h &&& (if p then 0 else m) = 0 ↔ (¬ p → h &&& m = 0) := by
  split <;> simp [*]

theorem and_unusedFields_eq_zero_iff {h : Word} {op : BitVec 8} :
    h &&& unusedFields op = 0 ↔
      (¬ (op = 0x01 ∨ op = 0x04) → kOf h = 0) ∧
      (op ≠ 0x01 → riOf h = false ∧ roOf h = false ∧ wdOf h = 0) ∧
      (op ≠ 0x06 → dsOf h = false ∧ drOf h = false) := by
  have hk : h &&& fieldMask 8 3 = 0 ↔ kOf h = 0 := and_fieldMask_eq_zero_iff (by decide)
  have hri : h &&& fieldMask 11 1 = 0 ↔ riOf h = false := and_fieldMask_one_eq_zero_iff (by decide)
  have hro : h &&& fieldMask 12 1 = 0 ↔ roOf h = false := and_fieldMask_one_eq_zero_iff (by decide)
  have hwd : h &&& fieldMask 16 8 = 0 ↔ wdOf h = 0 := and_fieldMask_eq_zero_iff (by decide)
  have hds : h &&& fieldMask 24 1 = 0 ↔ dsOf h = false := and_fieldMask_one_eq_zero_iff (by decide)
  have hdr : h &&& fieldMask 25 1 = 0 ↔ drOf h = false := and_fieldMask_one_eq_zero_iff (by decide)
  simp only [unusedFields, and_or_eq_zero_iff, and_ite_zero_eq_zero_iff, hk, hri, hro, hwd, hds, hdr, ne_eq]

/-- The third test, on a header that has passed the second (R61, "Used by"). -/
theorem and_not_usedBits_ne_zero_iff {h : Word} {op : BitVec 8} (hr : h &&& reservedBits = 0) :
    h &&& ~~~(0xFF ||| usedBits op) ≠ 0 ↔
      (op ≠ 0x01 ∧ op ≠ 0x04 ∧ kOf h ≠ 0) ∨
      (op ≠ 0x01 ∧ (riOf h = true ∨ roOf h = true ∨ wdOf h ≠ 0)) ∨
      (op ≠ 0x06 ∧ (dsOf h = true ∨ drOf h = true)) := by
  rw [not_usedBits_eq, ne_eq, and_or_eq_zero_iff, and_iff_right hr, and_unusedFields_eq_zero_iff]
  simp only [not_and_or, Classical.not_imp, not_or, and_assoc, Bool.not_eq_false, ne_eq]

theorem four_lt_iff {k : BitVec 3} : 4 < k ↔ k = 5 ∨ k = 6 ∨ k = 7 := by
  revert k
  decide

/-- Settles O5: each test of the model is the test of R67 on the fields, given that the tests before it passed. -/
theorem illegalHeadersFailATestInOrder : Obligations.IllegalHeadersFailATestInOrder := by
  intro h
  simp only [illegalReason, isOpcode_iff_mem, and_reservedBits_ne_zero_iff, four_lt_iff]
  refine ite_congr rfl (fun _ => rfl) fun _ => ite_congr rfl (fun _ => rfl) fun hr => ?_
  refine ite_congr (propext ?_) (fun _ => rfl) fun _ => rfl
  exact and_not_usedBits_ne_zero_iff (not_not.1 (mt and_reservedBits_ne_zero_iff.1 hr))

/-! ### Legal headers -/

theorem ite_some_eq_none_iff {α : Type} {p : Prop} [Decidable p] {a : α} {o : Option α} :
    (if p then some a else o) = none ↔ ¬ p ∧ o = none := by
  split <;> simp [*]

/-- A header is legal when its opcode is one of the eleven, no bit is set that the opcode does not use, and its kernel number,
if it has one, names a kernel. The reserved bits are among those no opcode uses. -/
theorem illegalReason_eq_none_iff {h : Word} :
    illegalReason h = none ↔
      isOpcode (opOf h) = true ∧ h &&& ~~~(0xFF ||| usedBits (opOf h)) = 0 ∧
        (opOf h = 0x01 ∨ opOf h = 0x04 → kOf h ≤ 4) := by
  have hreserved : h &&& ~~~(0xFF ||| usedBits (opOf h)) = 0 → h &&& reservedBits = 0 := by
    rw [not_usedBits_eq, and_or_eq_zero_iff]
    exact And.left
  simp only [illegalReason, ite_some_eq_none_iff, not_and, BitVec.not_lt, not_not, ne_eq]
  tauto

/-- A legal header is its opcode and the bits that opcode uses. -/
theorem header_eq_of_legal {h : Word} (hl : illegalReason h = none) :
    h = (opOf h).setWidth 64 ||| (h &&& usedBits (opOf h)) := by
  obtain ⟨_, hunused, _⟩ := illegalReason_eq_none_iff.1 hl
  have hop : h &&& 0xFF = (opOf h).setWidth 64 := (and_fieldMask h 0 8).trans (by simp [opOf])
  have hh := eq_and_or_and_not h (0xFF ||| usedBits (opOf h))
  rw [hunused, BitVec.and_or_distrib_left, hop] at hh
  exact hh.trans BitVec.or_zero

theorem header_eq_of_unused {h : Word} {op : BitVec 8} (hl : illegalReason h = none) (hop : opOf h = op)
    (hu : usedBits op = 0) : h = op.setWidth 64 := by
  have hh := header_eq_of_legal hl
  rw [hop, hu] at hh
  simpa using hh

/-- The header of MAKE, from its fields. -/
theorem header_eq_of_make {h : Word} (hl : illegalReason h = none) (hop : opOf h = 0x01) :
    h = makeHeader (wdOf h) (kOf h) (riOf h) (roOf h) := by
  have hfields : usedBits 0x01 = fieldMask 8 3 ||| fieldMask 11 1 ||| fieldMask 12 1 ||| fieldMask 16 8 := by decide
  have hh := header_eq_of_legal hl
  simp only [hop, hfields, BitVec.and_or_distrib_left, and_fieldMask_one] at hh
  rw [and_fieldMask, and_fieldMask, ← BitVec.or_assoc, ← BitVec.or_assoc, ← BitVec.or_assoc] at hh
  exact hh

/-- The header of TUNE, from its fields. -/
theorem header_eq_of_tune {h : Word} (hl : illegalReason h = none) (hop : opOf h = 0x06) :
    h = tuneHeader (dsOf h) (drOf h) := by
  have hfields : usedBits 0x06 = fieldMask 24 1 ||| fieldMask 25 1 := by decide
  have hh := header_eq_of_legal hl
  simp only [hop, hfields, BitVec.and_or_distrib_left, and_fieldMask_one, ← BitVec.or_assoc] at hh
  exact hh

/-- The header of CONSUMEK, from its kernel number. -/
theorem header_eq_of_consumek {h : Word} (hl : illegalReason h = none) (hop : opOf h = 0x04) :
    h = 0x04 ||| (kOf h).setWidth 64 <<< 8 := by
  have hfield : usedBits 0x04 = fieldMask 8 3 := by decide
  have hh := header_eq_of_legal hl
  rw [hop, hfield, and_fieldMask] at hh
  exact hh

end Sys2Proof
end

section
/-! PROOFS. Legal headers and the commands they begin (R66, R67, R69): O6. -/

namespace Sys2Proof

/-! ### From a legal header to its command -/

/-- The operand words of a descriptor are the first of the three words after its header. -/
def operandWords (h w1 w2 w3 : Word) : List Word := [w1, w2, w3].take (descriptorLength (opOf h) - 1)

/-- The command `i` is what a decoder makes of the header and the words after it, and they are its descriptor. -/
def Describes (h w1 w2 w3 : Word) (i : Instr) : Prop :=
  commandOf h w1 w2 w3 = some i ∧ WellFormed i ∧ encode i = h :: operandWords h w1 w2 w3

theorem kernel_field_of_le_four {k : BitVec 3} (hk : k ≤ 4) : k = 0 ∨ k = 1 ∨ k = 2 ∨ k = 3 ∨ k = 4 := by
  revert k
  decide

theorem exists_describes_of_make {h : Word} (hl : illegalReason h = none) (hop : opOf h = 0x01) (w1 w2 w3 : Word) :
    ∃ i, Describes h w1 w2 w3 i := by
  obtain ⟨_, _, hk⟩ := illegalReason_eq_none_iff.1 hl
  refine ⟨.make (wdOf h) (kOf h) (riOf h) (roOf h) w1 w2 w3, ?_, ?_, ?_⟩
  · rw [commandOf, hop]; rfl
  · exact decide_eq_true (hk (.inl hop))
  · rw [operandWords, hop, encode, ← header_eq_of_make hl hop]; rfl

theorem exists_describes_of_tune {h : Word} (hl : illegalReason h = none) (hop : opOf h = 0x06) (w1 w2 w3 : Word) :
    ∃ i, Describes h w1 w2 w3 i := by
  refine ⟨.tune (dsOf h) (drOf h) w1 w2, ?_, rfl, ?_⟩
  · rw [commandOf, hop]; rfl
  · rw [operandWords, hop, encode, ← header_eq_of_tune hl hop]; rfl

theorem exists_describes_of_consumek {h : Word} (hl : illegalReason h = none) (hop : opOf h = 0x04) (w1 w2 w3 : Word) :
    ∃ i, Describes h w1 w2 w3 i := by
  obtain ⟨_, _, hk⟩ := illegalReason_eq_none_iff.1 hl
  have hh := header_eq_of_consumek hl hop
  rcases kernel_field_of_le_four (hk (.inr hop)) with hk | hk | hk | hk | hk <;> rw [hk] at hh
  · obtain rfl : h = 0x0004 := hh
    exact ⟨.consumekByte w1 w2, rfl, rfl, rfl⟩
  · obtain rfl : h = 0x0104 := hh
    exact ⟨.consumek1w w1 w2, rfl, rfl, rfl⟩
  · obtain rfl : h = 0x0204 := hh
    exact ⟨.consumek2w w1 w2, rfl, rfl, rfl⟩
  · obtain rfl : h = 0x0304 := hh
    exact ⟨.consumek4w w1 w2, rfl, rfl, rfl⟩
  · obtain rfl : h = 0x0404 := hh
    exact ⟨.consumek8w w1 w2, rfl, rfl, rfl⟩

/-- Every legal header, with any words after it, begins the descriptor of a well-formed command: by opcode. -/
theorem exists_describes_of_legal {h : Word} (hl : illegalReason h = none) (w1 w2 w3 : Word) :
    ∃ i, Describes h w1 w2 w3 i := by
  obtain ⟨hop, _, _⟩ := illegalReason_eq_none_iff.1 hl
  simp only [isOpcode_iff_mem, List.mem_cons, List.not_mem_nil, or_false] at hop
  rcases hop with hop | hop | hop | hop | hop | hop | hop | hop | hop | hop | hop
  · exact exists_describes_of_make hl hop w1 w2 w3
  · obtain rfl : h = 0x02 := header_eq_of_unused hl hop rfl
    exact ⟨.reset, rfl, rfl, rfl⟩
  · obtain rfl : h = 0x03 := header_eq_of_unused hl hop rfl
    exact ⟨.consume w1 w2, rfl, rfl, rfl⟩
  · exact exists_describes_of_consumek hl hop w1 w2 w3
  · obtain rfl : h = 0x05 := header_eq_of_unused hl hop rfl
    exact ⟨.digest, rfl, rfl, rfl⟩
  · exact exists_describes_of_tune hl hop w1 w2 w3
  · obtain rfl : h = 0x10 := header_eq_of_unused hl hop rfl
    exact ⟨.crc16, rfl, rfl, rfl⟩
  · obtain rfl : h = 0x11 := header_eq_of_unused hl hop rfl
    exact ⟨.crc16Ccitt, rfl, rfl, rfl⟩
  · obtain rfl : h = 0x12 := header_eq_of_unused hl hop rfl
    exact ⟨.crc32, rfl, rfl, rfl⟩
  · obtain rfl : h = 0x13 := header_eq_of_unused hl hop rfl
    exact ⟨.crc64, rfl, rfl, rfl⟩
  · obtain rfl : h = 0x14 := header_eq_of_unused hl hop rfl
    exact ⟨.crc64Iso, rfl, rfl, rfl⟩

/-! ### The opcode table's rows -/

/-- The facts of the family `Descriptor`, for every command. -/
theorem descriptor_statement (i : Instr) : Laws.Descriptor.Statement i := by
  cases i with
  | make wd k ri ro poly ini xorout => exact Laws.Descriptor.make wd k ri ro poly ini xorout
  | reset => exact Laws.Descriptor.reset
  | consume addr len => exact Laws.Descriptor.consume addr len
  | consumekByte addr len => exact Laws.Descriptor.consumekByte addr len
  | consumek1w addr len => exact Laws.Descriptor.consumek1w addr len
  | consumek2w addr len => exact Laws.Descriptor.consumek2w addr len
  | consumek4w addr len => exact Laws.Descriptor.consumek4w addr len
  | consumek8w addr len => exact Laws.Descriptor.consumek8w addr len
  | digest => exact Laws.Descriptor.digest
  | tune ds dr size reps => exact Laws.Descriptor.tune ds dr size reps
  | crc16 => exact Laws.Descriptor.crc16
  | crc16Ccitt => exact Laws.Descriptor.crc16Ccitt
  | crc32 => exact Laws.Descriptor.crc32
  | crc64 => exact Laws.Descriptor.crc64
  | crc64Iso => exact Laws.Descriptor.crc64Iso

theorem selectsRow_iff {h m k : Word} : selectsRow h (m, k) = true ↔ h &&& k = m := beq_iff_eq

/-- A header that selects a row agrees with the row's match in every bit of the row's mask. -/
theorem and_eq_of_selectsRow {h n : Word} {row : Word × Word} (hs : selectsRow h row = true) (hn : row.2 &&& n = n) :
    h &&& n = row.1 &&& n := by
  rw [← selectsRow_iff.1 hs, BitVec.and_assoc, hn]

theorem extractLsb'_eq_of_selectsRow {h : Word} {row : Word × Word} (hs : selectsRow h row = true) {s n : Nat}
    (hn : s + n ≤ 64) (hfix : row.2 &&& fieldMask s n = fieldMask s n) :
    h.extractLsb' s n = row.1.extractLsb' s n := by
  rw [← extractLsb'_and_fieldMask h hn, and_eq_of_selectsRow hs hfix, extractLsb'_and_fieldMask row.1 hn]

/-- Each row's match is itself a legal header, and its mask fixes the opcode, the bits the opcode does not use, and of
CONSUMEK the kernel number (R66). -/
theorem rows_fix_legal_headers : ∀ row ∈ opcodeRows,
    illegalReason row.1 = none ∧ row.2 &&& fieldMask 0 8 = fieldMask 0 8 ∧
      row.2 &&& ~~~(0xFF ||| usedBits (opOf row.1)) = ~~~(0xFF ||| usedBits (opOf row.1)) ∧
      (opOf row.1 = 0x04 → row.2 &&& fieldMask 8 3 = fieldMask 8 3) :=
  List.all_iff_forall_prop.1 (by decide)

theorem legal_of_selectsRow {h : Word} {row : Word × Word} (hrow : row ∈ opcodeRows) (hs : selectsRow h row = true)
    (hmake : opOf h = 0x01 → kOf h ≤ 4) : illegalReason h = none := by
  obtain ⟨hlegal, hopcode, hunused, hkernel⟩ := rows_fix_legal_headers row hrow
  obtain ⟨hop, hz, hk⟩ := illegalReason_eq_none_iff.1 hlegal
  have hoph : opOf h = opOf row.1 := extractLsb'_eq_of_selectsRow hs (by decide) hopcode
  refine illegalReason_eq_none_iff.2 ⟨by rwa [hoph], ?_, ?_⟩
  · rw [hoph, and_eq_of_selectsRow hs hunused, hz]
  · rintro (h1 | h4)
    · exact hmake h1
    · have hkh : kOf h = kOf row.1 := extractLsb'_eq_of_selectsRow hs (by decide) (hkernel (hoph ▸ h4))
      rw [hkh]
      exact hk (.inr (hoph ▸ h4))

theorem exists_row_of_legal {h : Word} (hl : illegalReason h = none) : ∃ row ∈ opcodeRows, selectsRow h row = true := by
  obtain ⟨i, _, _, henc⟩ := exists_describes_of_legal hl 0 0 0
  have hrow := (descriptor_statement i).1
  rw [henc] at hrow
  exact List.any_eq_true.1 hrow

/-- Two rows disagree in a bit that both their masks fix. -/
theorem opcodeRows_pairwise : opcodeRows.Pairwise fun row row' => row.1 &&& row'.2 ≠ row'.1 &&& row.2 := by decide

theorem row_eq_of_selectsRow {h : Word} {row row' : Word × Word} (hrow : row ∈ opcodeRows) (hrow' : row' ∈ opcodeRows)
    (hs : selectsRow h row = true) (hs' : selectsRow h row' = true) : row = row' := by
  have : Std.Symm fun row row' : Word × Word => row.1 &&& row'.2 ≠ row'.1 &&& row.2 := ⟨fun _ _ => Ne.symm⟩
  by_contra hne
  refine opcodeRows_pairwise.forall hrow hrow' hne ?_
  rw [← selectsRow_iff.1 hs, ← selectsRow_iff.1 hs']
  ac_rfl

/-- Settles O6: each legal header begins a well-formed command's descriptor, and that selects a row; a row's match is a legal
header, and its mask fixes all that legality asks for but MAKE's kernel number. -/
theorem legalHeadersSelectOneRow : Obligations.LegalHeadersSelectOneRow := by
  intro h
  refine ⟨⟨fun hl => ⟨exists_row_of_legal hl, fun hop => ?_⟩, ?_⟩, ?_⟩
  · obtain ⟨_, _, hk⟩ := illegalReason_eq_none_iff.1 hl
    exact hk (.inl hop)
  · rintro ⟨⟨row, hrow, hs⟩, hmake⟩
    exact legal_of_selectsRow hrow hs hmake
  · exact fun row hrow row' hrow' => row_eq_of_selectsRow hrow hrow'

end Sys2Proof
end

section
/-! PROOFS. The decoder on whole and partial descriptors (R62, R69): O1 to O4. -/

namespace Sys2Proof

/-! ### The decoder, case by case -/

theorem descriptorLength_bounds (op : BitVec 8) : 1 ≤ descriptorLength op ∧ descriptorLength op ≤ 4 := by
  unfold descriptorLength
  split_ifs <;> omega

theorem decode_of_short {h : Word} {ops : List Word} (hn : ops.length + 1 < descriptorLength (opOf h)) :
    decode (h :: ops) = .waiting :=
  if_pos (by omega)

theorem decode_of_illegal {h : Word} {ops : List Word} {why : Illegal}
    (hn : descriptorLength (opOf h) ≤ ops.length + 1) (hi : illegalReason h = some why) :
    decode (h :: ops) = .illegal why (ops.drop (descriptorLength (opOf h) - 1)) := by
  simp only [decode, hi]
  exact if_neg (by omega)

/-- A legal header whose descriptor is whole: the words the descriptor has not make no difference. -/
theorem decode_of_legal {h : Word} {ops : List Word} {i : Instr} (hn : descriptorLength (opOf h) ≤ ops.length + 1)
    (hl : illegalReason h = none) (hc : commandOf h (ops.getD 0 0) (ops.getD 1 0) (ops.getD 2 0) = some i) :
    decode (h :: ops) = .command i (ops.drop (descriptorLength (opOf h) - 1)) := by
  simp only [decode, hl, hc]
  exact if_neg (by omega)

/-- The operand words the decoder reads from a stream are the first words of the stream. -/
theorem operandWords_eq_take {h : Word} {ops : List Word} (hn : descriptorLength (opOf h) ≤ ops.length + 1) :
    operandWords h (ops.getD 0 0) (ops.getD 1 0) (ops.getD 2 0) = ops.take (descriptorLength (opOf h) - 1) := by
  have ⟨_, h4⟩ := descriptorLength_bounds (opOf h)
  have hpad : [ops.getD 0 0, ops.getD 1 0, ops.getD 2 0] = (ops ++ [0, 0, 0]).take 3 := by
    rcases ops with _ | ⟨a, _ | ⟨b, _ | ⟨c, ops⟩⟩⟩ <;> rfl
  rw [operandWords, hpad, List.take_take, Nat.min_eq_left (by omega), List.take_append_of_le_length (by omega)]

/-- What a decoded command says of the stream: a legal header, whose command it is, with its whole descriptor. -/
theorem exists_of_decode_command {ws : List Word} {i : Instr} {rest : List Word} (hd : decode ws = .command i rest) :
    ∃ h ops, ws = h :: ops ∧ descriptorLength (opOf h) ≤ ops.length + 1 ∧
      Describes h (ops.getD 0 0) (ops.getD 1 0) (ops.getD 2 0) i ∧
      rest = ops.drop (descriptorLength (opOf h) - 1) := by
  cases ws with
  | nil => cases hd
  | cons h ops =>
    rcases Nat.lt_or_ge (ops.length + 1) (descriptorLength (opOf h)) with hn | hn
    · rw [decode_of_short hn] at hd
      cases hd
    cases hi : illegalReason h with
    | some why =>
      rw [decode_of_illegal hn hi] at hd
      cases hd
    | none =>
      obtain ⟨j, hj⟩ := exists_describes_of_legal hi (ops.getD 0 0) (ops.getD 1 0) (ops.getD 2 0)
      rw [decode_of_legal hn hi hj.1] at hd
      cases hd
      exact ⟨h, ops, rfl, hn, hj, rfl⟩

/-- Settles O3: the words taken are the header and the operand words, and those are the command's encoding. -/
theorem decodedCommandsHaveOneEncoding : Obligations.DecodedCommandsHaveOneEncoding := by
  intro ws i rest hd
  obtain ⟨h, ops, rfl, hn, ⟨_, hwf, henc⟩, rfl⟩ := exists_of_decode_command hd
  refine ⟨hwf, ?_⟩
  rw [henc, operandWords_eq_take hn, List.cons_append, List.take_append_drop]

/-- Settles O4: the model's length is the L of R62, and a legal header begins a command. -/
theorem decoderTakesTheDescriptorOfItsOpcode : Obligations.DecoderTakesTheDescriptorOfItsOpcode := by
  refine ⟨rfl, fun h ops L hL => ?_⟩
  have hlen : L = descriptorLength (opOf h) := by simpa [descriptorLength] using hL
  subst hlen
  refine ⟨decode_of_short, fun hn => ⟨fun why hi => decode_of_illegal hn hi, fun hl => ?_⟩⟩
  obtain ⟨i, hc, _, _⟩ := exists_describes_of_legal hl (ops.getD 0 0) (ops.getD 1 0) (ops.getD 2 0)
  exact ⟨i, decode_of_legal hn hl hc⟩

/-! ### The header of MAKE -/

@[simp] theorem getElem_flagBit (b : Bool) {n i : Nat} (hi : i < 64) : (flagBit b n)[i] = (b && decide (i = n)) := by
  have hbit : n ≤ i ∧ i - n = 0 ↔ i = n := by omega
  rw [flagBit_eq, BitVec.getElem_shiftLeft, Bool.eq_iff_iff]
  simp [← hbit, and_comm, and_left_comm]

section MakeHeader

variable (wd : BitVec 8) (k : BitVec 3) (ri ro : Bool)

@[simp] theorem kOf_makeHeader : kOf (makeHeader wd k ri ro) = k := by
  refine BitVec.eq_of_getLsbD_eq fun i hi => ?_
  interval_cases i <;> simp [kOf, makeHeader]

@[simp] theorem wdOf_makeHeader : wdOf (makeHeader wd k ri ro) = wd := by
  refine BitVec.eq_of_getLsbD_eq fun i hi => ?_
  interval_cases i <;> simp [wdOf, makeHeader]

@[simp] theorem opOf_makeHeader : opOf (makeHeader wd k ri ro) = 0x01 := by
  refine BitVec.eq_of_getLsbD_eq fun i hi => ?_
  interval_cases i <;> simp [opOf, makeHeader]

@[simp] theorem riOf_makeHeader : riOf (makeHeader wd k ri ro) = ri := by simp [riOf, makeHeader]

@[simp] theorem roOf_makeHeader : roOf (makeHeader wd k ri ro) = ro := by simp [roOf, makeHeader]

end MakeHeader

/-! ### The round trip -/

/-- A well-formed command's header is legal: it selects a row, and of MAKE the kernel number is at most 4. -/
theorem legal_of_encode {i : Instr} {h : Word} {args : List Word} (henc : encode i = h :: args) (hwf : WellFormed i) :
    illegalReason h = none := by
  have hrow := (descriptor_statement i).1
  rw [henc] at hrow
  obtain ⟨row, hrow, hs⟩ := List.any_eq_true.1 hrow
  refine legal_of_selectsRow hrow hs fun hop => ?_
  cases i with
  | make wd k ri ro poly ini xorout =>
    cases henc
    rw [kOf_makeHeader]
    exact of_decide_eq_true hwf
  | tune ds dr size reps =>
    cases henc
    revert hop
    cases ds <;> cases dr <;> decide
  | _ =>
    cases henc
    exact absurd hop (by decide)

theorem descriptorLength_of_encode {i : Instr} {h : Word} {args : List Word} (henc : encode i = h :: args) :
    descriptorLength (opOf h) = args.length + 1 := by
  have hlen := (descriptor_statement i).2
  rw [henc] at hlen
  exact hlen.symm

/-- The header and the operand words give the command back, whatever words follow them. -/
theorem commandOf_of_encode {i : Instr} {h : Word} {args : List Word} (henc : encode i = h :: args) (rest : List Word) :
    commandOf h ((args ++ rest).getD 0 0) ((args ++ rest).getD 1 0) ((args ++ rest).getD 2 0) = some i := by
  cases i with
  | make wd k ri ro poly ini xorout =>
    cases henc
    simp [commandOf]
  | tune ds dr size reps =>
    cases henc
    cases ds <;> cases dr <;> rfl
  | _ =>
    cases henc
    rfl

theorem encode_ne_nil (i : Instr) : encode i ≠ [] := by
  cases i <;> exact List.cons_ne_nil _ _

/-- Settles O2: an encoded header is legal, its descriptor is whole, and its fields and operand words are the command's. -/
theorem encodedCommandsDecodeToThemselves : Obligations.EncodedCommandsDecodeToThemselves := by
  intro i rest hwf
  obtain ⟨h, args, henc⟩ := List.exists_cons_of_ne_nil (encode_ne_nil i)
  have hlen := descriptorLength_of_encode henc
  have hn : descriptorLength (opOf h) ≤ (args ++ rest).length + 1 := by simp [hlen]
  rw [henc, List.cons_append, decode_of_legal hn (legal_of_encode henc hwf) (commandOf_of_encode henc rest), hlen,
    Nat.add_sub_cancel, List.drop_left]

/-- Settles O1, by running the decoder on the words of R74. -/
theorem workedEncodingsDecode : Obligations.WorkedEncodingsDecode := by
  unfold Obligations.WorkedEncodingsDecode
  decide

end Sys2Proof
end

section
/-! PROOFS. The assembler's pseudo-commands (R71): O7. -/

namespace Sys2Proof

theorem encode_consumekOf (k : Kernel) (addr len : Word) :
    encode (consumekOf k addr len) = [0x04 + 0x100 * (kernelNumber k).setWidth 64, addr, len] := by
  cases k <;> rfl

theorem elementBytes_of_fits {count esize : Nat} (h : count * esize < 2 ^ 64) :
    elementBytes count esize = some (BitVec.ofNat 64 (count * esize)) := if_pos h

theorem elementBytes_of_too_many {count esize : Nat} (h : 2 ^ 64 ≤ count * esize) : elementBytes count esize = none :=
  if_neg (Nat.not_lt.2 h)

/-- Settles O7, by the encoder's equations and the two cases of the assembler's product. -/
theorem pseudoCommandsExpand : Obligations.PseudoCommandsExpand := by
  refine ⟨rfl, fun _ => rfl, fun _ => rfl, fun k addr count esize => ⟨fun h => ?_, fun h => ?_⟩⟩
  · rw [pseudoConsumeW, pseudoConsumeKW, elementBytes_of_fits h]
    exact ⟨rfl, congrArg some (encode_consumekOf k addr _)⟩
  · rw [pseudoConsumeW, pseudoConsumeKW, elementBytes_of_too_many h]
    exact ⟨rfl, rfl⟩

end Sys2Proof
end

section
/-! PROOFS. The command port and the step (R60, R69): O8, O9, O11. -/

namespace Sys2Proof.Machine

/-- Settles O8, by the definition of the step. -/
theorem stepRunsTheDecodedCommand : Obligations.StepRunsTheDecodedCommand := by
  intro s i rest hd
  simp only [step, fetch, hd, State.takeDescriptor]

/-- A port with less than a descriptor leaves the step nothing to do (R69). -/
theorem step_of_waiting {s : State} (hd : decode s.port = .waiting) : step s = .next s := by
  simp only [step, fetch, hd, waitForWords]

/-- A port that begins with an encoded command runs it. -/
theorem step_of_encode {s : State} {i : Instr} {rest : List Word} (hwf : WellFormed i) (hp : s.port = encode i ++ rest) :
    step s = exec i { s with port := rest } :=
  stepRunsTheDecodedCommand s i rest (by rw [hp, encodedCommandsDecodeToThemselves i rest hwf])

/-- A proper first part of an encoded command waits. -/
theorem decode_of_partial {i : Instr} {given missing : List Word} (henc : encode i = given ++ missing)
    (hne : missing ≠ []) : decode given = .waiting := by
  cases given with
  | nil => rfl
  | cons h ops =>
    have hlen := descriptorLength_of_encode (args := ops ++ missing) henc
    have hpos := List.length_pos_of_ne_nil hne
    rw [List.length_append] at hlen
    exact decode_of_short (by omega)

/-- Settles O11: the part is shorter than its opcode says, and with the missing words the port holds the encoding. -/
theorem partialDescriptorsWaitForTheirWords : Obligations.PartialDescriptorsWaitForTheirWords := by
  intro s i given missing hwf henc hne hp
  refine ⟨step_of_waiting (hp ▸ decode_of_partial henc hne), ?_⟩
  exact step_of_encode (rest := []) hwf (by rw [State.deliver_port, hp, ← henc, List.append_nil])

/-- The descriptor of a placed word has the length its own opcode gives. -/
theorem descriptorOfBits_length {nbits w : Nat} {h : Word} {ops : List Word} (hd : descriptorOfBits nbits w = h :: ops) :
    ops.length + 1 = descriptorLength (opOf h) := by
  simp only [descriptorOfBits] at hd
  generalize BitVec.ofNat 64 ((w % 2 ^ nbits) >>> (64 * 0)) = w0 at hd
  have ⟨h1, h4⟩ := descriptorLength_bounds (opOf w0)
  obtain ⟨n, hn⟩ := Nat.exists_eq_add_of_le' h1
  rw [hn, List.take_succ_cons] at hd
  cases hd
  rw [hn, List.length_take, Nat.min_eq_left]
  simp only [List.length_cons, List.length_nil]
  omega

/-- A placed word that decodes is the encoding of its command, with nothing after it. -/
theorem descriptorOfBits_eq_encode {nbits w : Nat} {i : Instr} (hd : decodeTableWord nbits w = some i) :
    WellFormed i ∧ descriptorOfBits nbits w = encode i := by
  unfold decodeTableWord at hd
  split at hd
  case h_1 j rest hdec =>
    cases hd
    obtain ⟨h, ops, hws, _, ⟨_, hwf, henc⟩, _⟩ := exists_of_decode_command hdec
    refine ⟨hwf, ?_⟩
    have hlen := descriptorOfBits_length hws
    rw [henc, operandWords_eq_take hlen.ge, ← hlen, Nat.add_sub_cancel, List.take_length, hws]
  all_goals cases hd

/-- Settles O9: the placed word is the command's encoding, and the step leaves the words it was placed before. -/
theorem placedWordsRunAtTheNextStep : Obligations.PlacedWordsRunAtTheNextStep := by
  intro s nbits w i hd
  obtain ⟨hwf, henc⟩ := descriptorOfBits_eq_encode hd
  exact step_of_encode (s := s.withFetchWord nbits w) hwf (by rw [State.withFetchWord_port, henc])

end Sys2Proof.Machine
end

section
/-! PROOFS. The responses of the commands and of the step (R72, R73): O35, O36. -/

namespace Sys2Proof.Machine

/-! ### Each meaning's responses -/

theorem makeEngine_resp {P : Profile} {s t : State} (h : makeEngine P s = .next t) :
    t.resp = .ok 0 ∨ t.resp = .fault .unsupportedWidth ∨ t.resp = .fault .invalidProfile := by
  unfold makeEngine at h
  split at h
  · cases h; exact .inr (.inl rfl)
  · split at h
    · cases h; exact .inr (.inr rfl)
    · cases h; exact .inl rfl

theorem kernelOfNumber_of_le_four {k : BitVec 3} (hk : k ≤ 4) : ∃ kern, kernelOfNumber k = some kern := by
  rcases kernel_field_of_le_four hk with rfl | rfl | rfl | rfl | rfl <;> exact ⟨_, rfl⟩

theorem execMake_resp {wd : BitVec 8} {k : BitVec 3} {ri ro : Bool} {poly ini xorout : Word} {s t : State} (hk : k ≤ 4)
    (h : execMake wd k ri ro poly ini xorout s = .next t) :
    t.resp = .ok 0 ∨ t.resp = .fault .unsupportedWidth ∨ t.resp = .fault .invalidProfile := by
  obtain ⟨kern, hkern⟩ := kernelOfNumber_of_le_four hk
  simp only [execMake, hkern] at h
  exact makeEngine_resp h

theorem preset_resp {p : Preset} {s t : State} (h : makeEngine (presetProfile p) s = .next t) : t.resp = .ok 0 := by
  rw [makeEngine_of_legal (presetProfile_legal p)] at h
  cases h; rfl

theorem execReset_resp {s t : State} (h : execReset s = .next t) : t.resp = .ok 0 ∨ t.resp = .fault .notConfigured := by
  unfold execReset at h
  split at h
  · cases h; exact .inr rfl
  · cases h; exact .inl rfl

theorem consumeWith_resp {k : Kernel} {addr len : Word} {s t : State} (h : consumeWith k addr len s = .next t) :
    t.resp = .ok 0 ∨ t.resp = .fault .notConfigured ∨ t.resp = .fault .spanRange := by
  unfold consumeWith at h
  split at h
  · cases h; exact .inr (.inl rfl)
  · split at h
    · cases h; exact .inr (.inr rfl)
    · split at h
      · cases h
      · cases h; exact .inl rfl

theorem execDigest_resp {s t : State} (h : execDigest s = .next t) :
    t.resp = .ok (digestOf s.profile s.reg) ∨ t.resp = .fault .notConfigured := by
  unfold execDigest at h
  split at h
  · cases h; exact .inr rfl
  · cases h; exact .inl rfl

theorem execTune_resp {ds dr : Bool} {size reps : Word} {s t : State} (h : execTune ds dr size reps s = .next t) :
    t.resp = .ok 0 ∨ t.resp = .fault .notConfigured ∨ t.resp = .fault .tuneRange := by
  unfold execTune at h
  split at h
  · cases h; exact .inr (.inl rfl)
  · split at h
    · cases h; exact .inr (.inr rfl)
    · cases h; exact .inl rfl

/-- The presets are the creation of their profiles (R95 to R99). -/
theorem exec_preset {i : Instr} (hi : i ∈ [Instr.crc16, .crc16Ccitt, .crc32, .crc64, .crc64Iso]) (s : State) :
    ∃ p, exec i s = makeEngine (presetProfile p) s := by
  simp only [List.mem_cons, List.not_mem_nil, or_false] at hi
  rcases hi with rfl | rfl | rfl | rfl | rfl
  · exact ⟨.crc16, rfl⟩
  · exact ⟨.crc16Ccitt, rfl⟩
  · exact ⟨.crc32, rfl⟩
  · exact ⟨.crc64, rfl⟩
  · exact ⟨.crc64Iso, rfl⟩

/-- Settles O35, command by command. -/
theorem commandsRespondAsTheSummarySays : Obligations.CommandsRespondAsTheSummarySays := by
  intro s t
  refine ⟨fun wd k ri ro poly ini xorout hk h => execMake_resp hk h, fun i hi h => ?_, fun h => execReset_resp h,
    fun addr len i hi h => ?_, fun h => execDigest_resp h, fun ds dr size reps h => execTune_resp h⟩
  · obtain ⟨p, hp⟩ := exec_preset hi s
    exact preset_resp (hp.symm.trans h)
  · obtain ⟨k, hk⟩ := exec_consumeForms hi s
    exact consumeWith_resp (hk.symm.trans h)

/-! ### `RESP.value` -/

theorem digestOf_lt {P : Profile} {reg : Word} (hx : P.xorout.toNat < 2 ^ P.width) (hr : reg.toNat < 2 ^ P.width) :
    (digestOf P reg).toNat < 2 ^ P.width := by
  unfold digestOf
  split
  · exact xor_lt (revW_lt _ _) hx
  · exact xor_lt hr hx

/-- DIGEST faults or responds the digest of a configured block. -/
theorem Ends.of_digest {s t : State} (h : Ends .digest s t) :
    (∃ f, t = s.raise f) ∨ (s.configured = true ∧ t = s.respond (digestOf s.profile s.reg)) := by
  refine h.imp_right fun h => ?_
  cases h with
  | created he _ => cases he
  | consumed k hi _ _ => simp [consumeForms] at hi
  | digested hc => exact ⟨hc, rfl⟩

/-- Every other command's response has value 0 (R72). -/
theorem Ends.value_eq_zero {i : Instr} {s t : State} (hi : i ≠ .digest) (h : Ends i s t) : t.resp.value = 0 := by
  rcases h with ⟨f, rfl⟩ | h
  · rfl
  · cases h with
    | digested _ => exact absurd rfl hi
    | _ => rfl

/-- Settles O36: an illegal header and a fault respond value 0, and DIGEST responds a digest of W-bit values. -/
theorem responseValueIsTheDigestOrZero : Obligations.ResponseValueIsTheDigestOrZero := by
  intro s t hs hw hstep
  rcases step_next hstep with ⟨hf, _⟩ | ⟨why, rest, hf, rfl⟩ | ⟨i, rest, hf, h⟩
  · exact absurd hf hw
  · exact ⟨fun ⟨⟨r, hd⟩, _⟩ => (nomatch hf.symm.trans hd), fun _ => rfl⟩
  · by_cases hi : i = .digest
    · subst hi
      rcases h.of_digest with ⟨f, rfl⟩ | ⟨hc, rfl⟩
      · exact ⟨fun ⟨_, h0⟩ => absurd h0 f.code_ne_zero, fun _ => rfl⟩
      · obtain ⟨⟨_, _, _, hx⟩, _, hr⟩ := hs.1 hc
        exact ⟨fun _ => ⟨rfl, digestOf_lt hx hr⟩, fun hn => absurd ⟨⟨rest, hf⟩, rfl⟩ hn⟩
    · refine ⟨fun ⟨⟨r, hd⟩, _⟩ => ?_, fun _ => h.value_eq_zero hi⟩
      cases hf.symm.trans hd
      exact absurd rfl hi

end Sys2Proof.Machine
end

section
/-! PROOFS. Row 0 of the table (R92), its other rows (R93), and what the table depends on (R94): O19, O20, O21. -/

namespace Sys2Proof.Machine

/-! ### Row 0 -/

theorem bitSteps_eq_iterate (P : Profile) : ∀ (n : Nat) (r : Word), bitSteps P n r = (bitStep P)^[n] r
  | 0, _ => rfl
  | n + 1, r => bitSteps_eq_iterate P n (bitStep P r)

/-- A byte shifted into the top of a W-bit register has no bit from W up. -/
theorem byte_shiftLeft_lt {w : Nat} (hw : 8 ≤ w) (v : Byte) : (v.setWidth 64 <<< (w - 8)).toNat < 2 ^ w := by
  refine lt_two_pow_iff.2 fun i hi => ?_
  have hpast : v.getLsbD (i - (w - 8)) = false := BitVec.getLsbD_of_ge v _ (by omega)
  simp [hpast]

/-- In a legal profile the top byte is the plain shift: nothing is lost at bit W. -/
theorem topByte_of_legal {P : Profile} (hP : P.Legal) (v : Byte) :
    topByte P v = (if P.refin then v.reverse else v).setWidth 64 <<< (P.width - 8) := by
  obtain ⟨hwidth, _⟩ := hP
  exact truncW_of_lt (byte_shiftLeft_lt (by omega) _)

/-- Entry 0 is 0, as row 0 is linear (R143 step 1). -/
theorem rowZeroEntry_zero (P : Profile) : rowZeroEntry P 0 = 0 := by
  simpa using rowZeroEntry_xor P 0 0

/-- Settles O19: entry `v` is eight bit steps from the top byte, between the two reversals. -/
theorem rowZeroAdvancesOneByte : Obligations.RowZeroAdvancesOneByte := by
  intro P v hP
  rw [tableGet_rowZero, tableGet_rowZero, rowZeroEntry_zero, rowZeroEntry, bitSteps_eq_iterate, topByte_of_legal hP]
  exact ⟨rfl, rfl⟩

/-! ### The other rows -/

/-- The recurrence in terms of the table's own row 0 (R93). -/
theorem tableGet_succ_eq (P : Profile) {j : Nat} (hj : j + 1 < 32) (i : Byte) :
    tableGet (tableOf P) (j + 1) i =
      if P.refin then (tableGet (tableOf P) j i >>> 8) ^^^ tableGet (tableOf P) 0 (lowByte (tableGet (tableOf P) j i))
      else shlW P.width (tableGet (tableOf P) j i) 8 ^^^
        tableGet (tableOf P) 0 (lowByte (tableGet (tableOf P) j i >>> (P.width - 8))) := by
  simp only [tableGet_succ P hj, nextEntry_rowZero, tableGet_rowZero]

/-- Row `j` is what the byte kernel makes of its index and `j` bytes of zero: each zero byte advances one row. -/
theorem tableGet_eq_foldl_byteStep (P : Profile) (i : Byte) : ∀ {j : Nat}, j < 32 →
    tableGet (tableOf P) j i = (i :: List.replicate j 0).foldl (byteStep P (tableOf P)) 0
  | 0, _ => by simp [byteStep_eq]
  | j + 1, hj => by
    rw [tableGet_succ_eq_advance P hj, tableGet_eq_foldl_byteStep P i (by omega), List.replicate_succ',
      ← List.cons_append, List.foldl_append]
    rfl

/-- Settles O20, by the recurrence and by the byte kernel over the zero bytes. -/
theorem tableRowsFollowTheRecurrence : Obligations.TableRowsFollowTheRecurrence := by
  rintro P _ j i - rfl hj
  refine ⟨?_, tableGet_eq_foldl_byteStep P i hj⟩
  rintro hj1 t rfl
  obtain ⟨k, rfl⟩ := Nat.exists_eq_add_of_le' hj1
  exact tableGet_succ_eq P hj i

/-! ### What the table depends on -/

section
variable {P Q : Profile} (hw : P.width = Q.width) (hp : P.poly = Q.poly) (hr : P.refin = Q.refin)
include hw hp hr

theorem rowZero_congr : rowZero P = rowZero Q := by
  have hstep : bitStep P = bitStep Q := by
    funext r
    simp only [bitStep, hw, hp]
  simp only [rowZero, rowZeroEntry, bitSteps_eq_iterate, hstep, topByte, hw, hr]

omit hp in
theorem tableEntry_congr (row0 : Row) (i : Byte) : ∀ j, tableEntry P row0 j i = tableEntry Q row0 j i
  | 0 => rfl
  | j + 1 => by simp only [tableEntry, nextEntry, tableEntry_congr row0 i j, hw, hr]

theorem tableOf_congr : tableOf P = tableOf Q := by
  simp only [tableOf, rowZero_congr hw hp hr, tableEntry_congr hw hr]

end

/-- Settles O21: the bit step reads `width` and `poly`, the rows read `width` and `refin`. -/
theorem tableDependsOnWidthPolyAndReflection : Obligations.TableDependsOnWidthPolyAndReflection :=
  fun _ _ hw hp hr => tableOf_congr hw hp hr

end Sys2Proof.Machine
end

section
/-! PROOFS. MAKE and the presets create the engine (R90, R95 to R102): O14, O17, O18. -/

namespace Sys2Proof.Machine

/-- MAKE with a kernel's number is the creation of the profile it spells out (R90). -/
theorem exec_make_of_kernel {k : BitVec 3} {kern : Kernel} (hk : kernelOfNumber k = some kern) (wd : BitVec 8)
    (ri ro : Bool) (poly ini xorout : Word) (s : State) :
    exec (.make wd k ri ro poly ini xorout) s = makeEngine ⟨wd.toNat, poly, ini, xorout, ri, ro, kern⟩ s := by
  simp only [exec, execMake, hk]

@[simp] theorem kernelOfNumber_kernelNumber (kern : Kernel) : kernelOfNumber (kernelNumber kern) = some kern := by
  cases kern <;> rfl

/-- Settles O14: the operands are a legal profile, and a legal profile creates its engine. -/
theorem makeCreatesTheEngine : Obligations.MakeCreatesTheEngine := by
  rintro s wd k kern ri ro poly ini xorout P hk hwidth hpoly hinit hxorout rfl
  rw [exec_make_of_kernel hk, makeEngine_of_legal ⟨hwidth, hpoly, hinit, hxorout⟩]
  rfl

@[simp] theorem revW_zero (w : Nat) : revW w 0 = 0 := by
  refine BitVec.eq_of_getLsbD_eq fun i _ => ?_
  simp [getLsbD_revW]

theorem revW_allOnes {w : Nat} (hw : w ≤ 64) :
    revW w ((BitVec.allOnes w).setWidth 64) = (BitVec.allOnes w).setWidth 64 := by
  refine BitVec.eq_of_getLsbD_eq fun i hi => ?_
  rw [getLsbD_revW, BitVec.getLsbD_setWidth, BitVec.getLsbD_setWidth, BitVec.getLsbD_allOnes, BitVec.getLsbD_allOnes]
  by_cases h : i < w
  · have h64 : w - 1 - i < 64 := by omega
    have hlt : w - 1 - i < w := by omega
    simp [h, h64, hlt]
  · simp [h]

/-- A preset's initial value is its own reversal, where it is reversed at all: it is 0, or ones throughout. -/
theorem initReg_presetProfile : ∀ p : Preset, initReg (presetProfile p) = (presetProfile p).init
  | .crc16 => revW_zero 16
  | .crc16Ccitt => rfl
  | .crc32 => revW_allOnes (w := 32) (by decide)
  | .crc64 => revW_allOnes (w := 64) (by decide)
  | .crc64Iso => revW_zero 64

/-- A preset creates the engine of its profile (R95 to R99). -/
theorem makeEngine_presetProfile (p : Preset) (s : State) :
    makeEngine (presetProfile p) s = .next { s with
      profile := presetProfile p, table := tableOf (presetProfile p), reg := (presetProfile p).init
      active := (presetProfile p).dkernel, configured := true, resp := ⟨0, 0⟩ } := by
  rw [makeEngine_of_legal (presetProfile_legal p), ← initReg_presetProfile p]
  rfl

/-- Settles O17, preset by preset: what is created is the row of `PRESET_ROM`. -/
theorem presetsCreateTheirEngines : Obligations.PresetsCreateTheirEngines := by
  intro s
  refine ⟨?_, ?_, ?_, ?_, ?_⟩ <;> rintro _ rfl
  · exact makeEngine_presetProfile .crc16 s
  · exact makeEngine_presetProfile .crc16Ccitt s
  · exact makeEngine_presetProfile .crc32 s
  · exact makeEngine_presetProfile .crc64 s
  · exact makeEngine_presetProfile .crc64Iso s

/-- Settles O18: the MAKE spells out the row's profile, its kernel number naming the row's default kernel. -/
theorem presetsAreTheMakesTheyName : Obligations.PresetsAreTheMakesTheyName := by
  intro s
  simp only [exec_make_of_kernel (kernelOfNumber_kernelNumber _)]
  exact ⟨rfl, rfl, rfl, rfl, rfl⟩

end Sys2Proof.Machine
end

section
/-! PROOFS. RESET, CONSUME, CONSUMEK and DIGEST by their cases, and what they leave unchanged (R110 to R113, R115): O23, O24,
O27, O28, O29, O39, O40. -/

namespace Sys2Proof.Machine

/-! ### RESET and DIGEST -/

theorem exec_reset_of_configured {s : State} (hc : s.configured = true) :
    exec .reset s = .next ({ s with reg := initReg s.profile }.respond 0) :=
  if_neg (not_not.2 hc)

theorem exec_digest_of_configured {s : State} (hc : s.configured = true) :
    exec .digest s = .next (s.respond (digestOf s.profile s.reg)) :=
  if_neg (not_not.2 hc)

/-- Settles O23: with an engine `REG` is `InitReg`, without one the command faults. -/
theorem resetRestoresTheInitialRegister : Obligations.ResetRestoresTheInitialRegister :=
  fun _ => ⟨exec_of_not_configured rfl, exec_reset_of_configured⟩

/-- Two reflection flags that agree leave the register as it is. -/
theorem digestOf_of_flags_eq {P : Profile} (h : P.refout = P.refin) (r : Word) : digestOf P r = r ^^^ P.xorout := by
  rw [digestOf, if_neg (by simp [h])]

/-- Two that differ reverse it. -/
theorem digestOf_of_flags_ne {P : Profile} (h : P.refout ≠ P.refin) (r : Word) :
    digestOf P r = revW P.width r ^^^ P.xorout := by
  rw [digestOf, if_pos (bne_iff_ne.2 h)]

/-- Settles O24: the four rows of R113 are the flags that agree and the flags that differ. -/
theorem digestFinalizesWithoutMutating : Obligations.DigestFinalizesWithoutMutating := by
  refine fun s => ⟨exec_of_not_configured rfl, fun hc => ?_⟩
  rw [exec_digest_of_configured hc]
  cases hin : s.profile.refin <;> cases hout : s.profile.refout
  · rw [digestOf_of_flags_eq (hout.trans hin.symm)]; rfl
  · rw [digestOf_of_flags_ne (by simp [hin, hout])]; rfl
  · rw [digestOf_of_flags_ne (by simp [hin, hout])]; rfl
  · rw [digestOf_of_flags_eq (hout.trans hin.symm)]; rfl

/-! ### CONSUME and CONSUMEK -/

/-- Settles O27, by the cases of the consume wrapper. -/
theorem consumeRunsTheActiveKernel : Obligations.ConsumeRunsTheActiveKernel :=
  fun _ _ _ => ⟨consumeWith_of_not_configured, consumeWith_of_past_top, consumeWith_of_unadmitted,
    fun hc hr ha => consumeWith_of_reads hc ⟨hr, ha⟩⟩

/-- Settles O28: each form is the consume wrapper with its own kernel. -/
theorem consumekRunsItsOwnKernel : Obligations.ConsumekRunsItsOwnKernel := by
  intro s addr len hc hr ha
  have hrun (k : Kernel) := consumeWith_of_reads (k := k) hc ⟨hr, ha⟩
  exact ⟨hrun .byte, hrun .w1, hrun .w2, hrun .w4, hrun .w8⟩

/-- An empty span lies inside the address space wherever it starts. -/
theorem empty_span_in_range (addr : Word) : addr.toNat + (0 : Word).toNat ≤ 2 ^ 64 := addr.isLt.le

/-- Over an empty span the kernel has nothing to fold (R115). -/
theorem consumeWith_empty_span {k : Kernel} {addr : Word} {s : State} (hc : s.configured = true)
    (ha : memAdmit s.unadmitted addr 0 = true) : consumeWith k addr 0 s = .next (s.respond 0) := by
  rw [consumeWith_of_reads hc ⟨empty_span_in_range addr, ha⟩]
  exact congrArg (fun r => Host.Outcome.next ({ s with reg := r }.respond 0)) (runKernel_zero k _ _ _ _ _)

/-- Settles O29: a platform that refuses nothing admits the empty span, and over an admitted one no kernel changes `REG`. -/
theorem emptySpansAreNoOps : Obligations.EmptySpansAreNoOps := by
  intro s addr hc i hi
  obtain ⟨k, hk⟩ := exec_consumeForms hi s
  rw [hk]
  refine ⟨fun ha => consumeWith_empty_span hc ?_, consumeWith_of_unadmitted hc (empty_span_in_range addr)⟩
  rcases ha with hnone | ha
  · rw [hnone, memAdmit_nil]
  · exact ha

/-! ### Frames -/

/-- All but `REG` and `RESP` is the same in two states. -/
def State.SameButReg (s t : State) : Prop :=
  t.profile = s.profile ∧ t.table = s.table ∧ t.active = s.active ∧ t.configured = s.configured ∧
    t.port = s.port ∧ (∀ a, t.mem.read a = s.mem.read a) ∧ t.unadmitted = s.unadmitted ∧
    t.tuneBufMax = s.tuneBufMax ∧ t.draws = s.draws

/-- A write of the two leaves the rest; a fault and DIGEST are such writes too, with the `REG` there was. -/
theorem State.sameButReg_write (s : State) (r : Word) (a : Resp) : s.SameButReg { s with reg := r, resp := a } :=
  ⟨rfl, rfl, rfl, rfl, rfl, fun _ => rfl, rfl, rfl, rfl⟩

/-- Settles O39: the wrapper faults or writes the kernel's register. -/
theorem consumeFrame : Obligations.ConsumeFrame := by
  intro s t addr len i hi h
  obtain ⟨k, hk⟩ := exec_consumeForms hi s
  rcases consumeWith_next (hk.symm.trans h) with ⟨f, rfl⟩ | ⟨_, _, rfl⟩ <;> exact s.sameButReg_write _ _

theorem Ends.of_reset {s t : State} (h : Ends .reset s t) :
    (∃ f, t = s.raise f) ∨ t = { s with reg := initReg s.profile }.respond 0 := by
  refine h.imp_right fun h => ?_
  cases h with
  | created he _ => cases he
  | restarted _ => rfl
  | consumed k hi _ _ => simp [consumeForms] at hi

/-- Settles O40: RESET faults or writes `InitReg`, DIGEST faults or responds. -/
theorem resetAndDigestFrame : Obligations.ResetAndDigestFrame := by
  intro s t i hi h
  simp only [List.mem_cons, List.not_mem_nil, or_false] at hi
  rcases hi with rfl | rfl
  · refine ⟨nofun, ?_⟩
    rcases (exec_next h).of_reset with ⟨f, rfl⟩ | rfl <;> exact s.sameButReg_write _ _
  · refine ⟨fun _ => (exec_next h).digest_reg, ?_⟩
    rcases (exec_next h).of_digest with ⟨f, rfl⟩ | ⟨_, rfl⟩ <;> exact s.sameButReg_write _ _

end Sys2Proof.Machine
end

section
/-! PROOFS. The bit-serial reference (R118): one byte of the table-driven step is eight one-bit steps, so the digest of a
message is the reference's. -/

namespace Sys2Proof.Machine

/-! ### The reference's register and the block's -/

/-- The reference's register as the block holds it: reversed when the profile reflects its input. -/
def reflectIn (P : Profile) (r : Word) : Word := if P.refin then revW P.width r else r

theorem initReg_eq_reflectIn (P : Profile) : initReg P = reflectIn P P.init := rfl

theorem rowZeroEntry_eq_reflectIn (P : Profile) (v : Byte) :
    rowZeroEntry P v = reflectIn P (bitSteps P 8 (topByte P v)) := rfl

theorem reflectIn_xor (P : Profile) (a b : Word) : reflectIn P (a ^^^ b) = reflectIn P a ^^^ reflectIn P b := by
  unfold reflectIn
  split
  · exact revW_xor _ _ _
  · rfl

theorem Profile.Legal.width_le {P : Profile} (hP : P.Legal) : 8 ≤ P.width ∧ P.width ≤ 64 := by
  have := hP.1
  omega

/-- The digest of a register the block holds is what the reference makes of its own at the end (R118). -/
theorem digestOf_reflectIn {P : Profile} (hP : P.Legal) {r : Word} (hr : r.toNat < 2 ^ P.width) :
    digestOf P (reflectIn P r) = (if P.refout then revW P.width r else r) ^^^ P.xorout := by
  have hrev : revW P.width (revW P.width r) = r := revW_revW hP.width_le.2 hr
  cases hin : P.refin <;> cases hout : P.refout <;> simp [digestOf, reflectIn, hin, hout, hrev]

/-! ### Eight one-bit steps -/

/-- As long as no set bit comes to the top, the steps are shifts. -/
theorem bitSteps_eq_shlW {P : Profile} {n : Nat} {r : Word} (hr : r.toNat < 2 ^ (P.width - n)) (hn : n ≤ P.width) :
    bitSteps P n r = shlW P.width r n := by
  induction n generalizing r with
  | zero =>
    rw [Nat.sub_zero] at hr
    rw [bitSteps, shlW, BitVec.shiftLeft_zero, truncW_of_lt hr]
  | succ n ih =>
    have htop : r.getLsbD (P.width - 1) = false := lt_two_pow_iff.1 hr _ (by omega)
    have hstep : bitStep P r = shlW P.width r 1 := by simp [bitStep, htop]
    have hlt : (shlW P.width r 1).toNat < 2 ^ (P.width - n) := by
      refine lt_two_pow_iff.2 fun i hi => ?_
      rw [getLsbD_shlW]
      by_cases h1 : i < 1
      · simp [h1]
      · simp [lt_two_pow_iff.1 hr (i - 1) (by omega)]
    rw [bitSteps, hstep, ih hlt (by omega), shlW_shlW, Nat.add_comm]

/-- The lowest byte of the reversed register is its top byte reversed. -/
theorem rev8_lowByte_revW {w : Nat} (h8 : 8 ≤ w) (h64 : w ≤ 64) (r : Word) :
    rev8 (lowByte (revW w r)) = lowByte (r >>> (w - 8)) := by
  refine BitVec.eq_of_getLsbD_eq fun i hi => ?_
  have hidx : w - 1 - (7 - i) = w - 8 + i := by omega
  have hw : 7 - i < w := by omega
  simp only [rev8, lowByte, BitVec.getLsbD_reverse, BitVec.getMsbD_eq_getLsbD, BitVec.getLsbD_setWidth, getLsbD_revW,
    BitVec.getLsbD_ushiftRight]
  grind

/-- Put back at the top, the leading byte is the register's top byte. -/
theorem topByte_leadByte {P : Profile} (hP : P.Legal) (r : Word) :
    topByte P (leadByte P (reflectIn P r)) =
      shlW P.width ((lowByte (r >>> (P.width - 8))).setWidth 64) (P.width - 8) := by
  obtain ⟨h8, h64⟩ := hP.width_le
  unfold topByte leadByte reflectIn
  split
  · rw [rev8_lowByte_revW h8 h64]
  · rfl

/-- What is left of a W-bit register without its leading byte lies below it. -/
theorem xor_topByte_leadByte_lt {P : Profile} (hP : P.Legal) {r : Word} (hr : r.toNat < 2 ^ P.width) :
    (r ^^^ topByte P (leadByte P (reflectIn P r))).toNat < 2 ^ (P.width - 8) := by
  refine lt_two_pow_iff.2 fun i hi => ?_
  rw [BitVec.getLsbD_xor, topByte_leadByte hP, getLsbD_shlW]
  by_cases hw : i < P.width
  · have hbyte : i - (P.width - 8) < 8 := by omega
    have hbyte64 : i - (P.width - 8) < 64 := by omega
    have h64 : i < 64 := hw.trans_le hP.width_le.2
    simp [lowByte, hw, hbyte, hbyte64, h64, Nat.not_lt.2 hi, Nat.add_sub_cancel' hi]
  · simp [hw, lt_two_pow_iff.1 hr i (by omega)]

/-- A byte at the top is the one that a shift by eight drops. -/
theorem shlW_topByte {P : Profile} (hP : P.Legal) (v : Byte) : shlW P.width (topByte P v) 8 = 0#64 := by
  obtain ⟨h8, _⟩ := hP.width_le
  rw [topByte, shlW_shlW, Nat.sub_add_cancel h8]
  refine BitVec.eq_of_getLsbD_eq fun i _ => ?_
  rw [getLsbD_shlW]
  by_cases h : i < P.width <;> simp [h]

/-- A shift up, reversed, is a shift down of the reversed. -/
theorem revW_shlW {w : Nat} (hw : w ≤ 64) (r : Word) (n : Nat) : revW w (shlW w r n) = revW w r >>> n := by
  refine BitVec.eq_of_getLsbD_eq fun i hi => ?_
  simp only [getLsbD_revW, getLsbD_shlW, BitVec.getLsbD_ushiftRight]
  have hidx : w - 1 - i - n = w - 1 - (n + i) := by omega
  rw [hidx]
  grind

theorem reflectIn_shlW {P : Profile} (hP : P.Legal) (r : Word) :
    reflectIn P (shlW P.width r 8) = dropByte P (reflectIn P r) := by
  unfold reflectIn dropByte
  split
  · exact revW_shlW hP.width_le.2 r 8
  · rfl

/-- Eight steps are the leading byte's eight steps, and the rest shifted. -/
theorem bitSteps_eight {P : Profile} (hP : P.Legal) {r : Word} (hr : r.toNat < 2 ^ P.width) :
    bitSteps P 8 r = shlW P.width r 8 ^^^ bitSteps P 8 (topByte P (leadByte P (reflectIn P r))) := by
  set top := topByte P (leadByte P (reflectIn P r)) with htop
  have hlow : (r ^^^ top).toNat < 2 ^ (P.width - 8) := xor_topByte_leadByte_lt hP hr
  calc bitSteps P 8 r = bitSteps P 8 ((r ^^^ top) ^^^ top) := by rw [BitVec.xor_assoc, BitVec.xor_self, BitVec.xor_zero]
    _ = shlW P.width (r ^^^ top) 8 ^^^ bitSteps P 8 top := by
      rw [bitSteps_xor, bitSteps_eq_shlW hlow hP.width_le.1]
    _ = shlW P.width r 8 ^^^ bitSteps P 8 top := by rw [shlW_xor, htop, shlW_topByte hP, BitVec.xor_zero]

/-- The table-driven step is the reference's byte, whichever way the register is held (R118). -/
theorem byteStep_reflectIn {P : Profile} (hP : P.Legal) {r : Word} (hr : r.toNat < 2 ^ P.width) (v : Byte) :
    byteStep P (tableOf P) (reflectIn P r) v = reflectIn P (serialByte P r v) := by
  rw [byteStep_eq, tableGet_rowZero, rowZeroEntry_xor, rowZeroEntry_eq_reflectIn, rowZeroEntry_eq_reflectIn, serialByte,
    bitSteps_xor, bitSteps_eight hP hr, reflectIn_xor, reflectIn_xor, reflectIn_shlW hP]
  ac_rfl

theorem serialByte_lt {P : Profile} (hP : P.Legal) {r : Word} (hr : r.toNat < 2 ^ P.width) (v : Byte) :
    (serialByte P r v).toNat < 2 ^ P.width := by
  have ⟨_, hpoly, _, _⟩ := hP
  exact bitSteps_lt hpoly 8 (xor_lt hr (topByte_lt P v))

/-! ### Messages -/

theorem foldl_serialByte_lt {P : Profile} (hP : P.Legal) (message : List Byte) : ∀ {r : Word}, r.toNat < 2 ^ P.width →
    (message.foldl (serialByte P) r).toNat < 2 ^ P.width := by
  induction message with
  | nil => exact id
  | cons v vs ih => exact fun hr => ih (serialByte_lt hP hr v)

theorem foldl_byteStep_reflectIn {P : Profile} (hP : P.Legal) (message : List Byte) :
    ∀ {r : Word}, r.toNat < 2 ^ P.width →
      message.foldl (byteStep P (tableOf P)) (reflectIn P r) = reflectIn P (message.foldl (serialByte P) r) := by
  induction message with
  | nil => exact fun _ => rfl
  | cons v vs ih => exact fun hr => by rw [List.foldl_cons, byteStep_reflectIn hP hr, ih (serialByte_lt hP hr v)]; rfl

/-- The digest of a message is the reference's. -/
theorem digestOf_foldl_byteStep {P : Profile} (hP : P.Legal) (message : List Byte) :
    digestOf P (message.foldl (byteStep P (tableOf P)) (initReg P)) = serialDigest P message := by
  have ⟨_, _, hinit, _⟩ := hP
  rw [initReg_eq_reflectIn, foldl_byteStep_reflectIn hP message hinit,
    digestOf_reflectIn hP (foldl_serialByte_lt hP message hinit)]
  rfl

end Sys2Proof.Machine
end

section
/-! PROOFS. The laws of the operations, from the bit-serial reference: O53, partial feeds (R114) O54, the empty message (R116)
O55, reflect cancellation (R117) O56. -/

namespace Sys2Proof.Machine

/-! ### The consume commands on a message -/

/-- The block after a message: its bytes folded into `REG`, and the response (0, 0). -/
def State.feed (s : State) (message : List Byte) : State :=
  { s with reg := message.foldl (byteStep s.profile s.table) s.reg }.respond 0

theorem State.feed_feed (s : State) (a b : List Byte) : (s.feed a).feed b = s.feed (a ++ b) := by
  simp only [State.feed, List.foldl_append]
  rfl

/-- Under the invariant every consume command feeds the block the bytes of its span, whatever kernel it runs (R142). -/
theorem exec_consumeForms_eq_feed {s : State} (hs : s.Inv) (hc : s.configured = true) {addr len : Word}
    (hr : s.Reads addr len) {i : Instr} (hi : i ∈ consumeForms addr len) :
    exec i s = .next (s.feed (s.mem.span addr.toNat len.toNat)) := by
  obtain ⟨hP, hT, hreg⟩ := hs.1 hc
  obtain ⟨k, hk⟩ := exec_consumeForms hi s
  rw [hk, consumeWith_of_reads hc hr, hT, runKernel_eq_byteKernel hP hreg, byteKernel_eq_foldl, ← hT]
  rfl

/-- Settles O53: the command feeds the span, and the digest of what was fed is the reference's. -/
theorem digestEqualsTheBitSerialReference : Obligations.DigestEqualsTheBitSerialReference := by
  intro s addr len hs hc hinit hr i hi
  obtain ⟨hP, hT, _⟩ := hs.1 hc
  refine ⟨_, _, exec_consumeForms_eq_feed hs hc hr hi, exec_digest_of_configured hc, ?_⟩
  rw [← digestOf_foldl_byteStep hP, ← hT, ← hinit]
  rfl

/-- Settles O54: two feeds in a row are one of both messages, and that is the third span. -/
theorem partialFeedsCompose : Obligations.PartialFeedsCompose := by
  intro s t u v a1 n1 a2 n2 a3 n3 hs hc hspan hr1 hr2 hr3 i hi j hj k hk ht hu hv
  have ht_inv : t.Inv := (exec_next ht).inv hs
  cases (exec_consumeForms_eq_feed hs hc hr1 hi).symm.trans ht
  cases (exec_consumeForms_eq_feed ht_inv hc hr2 hj).symm.trans hu
  cases (exec_consumeForms_eq_feed hs hc hr3 hk).symm.trans hv
  have hfeeds : (s.feed (s.mem.span a1.toNat n1.toNat)).feed (s.mem.span a2.toNat n2.toNat) =
      s.feed (s.mem.span a3.toNat n3.toNat) := by rw [State.feed_feed, hspan]
  exact ⟨congrArg State.reg hfeeds, congrArg (fun s => digestOf s.profile s.reg) hfeeds⟩

/-! ### The empty message -/

/-- A configured block of a legal profile whose register is the initial one. -/
def State.Fresh (s : State) : Prop := s.configured = true ∧ s.profile.Legal ∧ s.reg = initReg s.profile

/-- MAKE, the presets, RESET and TUNE, if they do not fault, leave such a block (R90, R110, R150). -/
theorem Ends.fresh {i : Instr} {s t : State} (h : Ends i s t) (hs : s.Inv) (h0 : t.resp.status = 0)
    (hi : i.needsEngine = false ∨ i = .reset ∨ ∃ ds dr size reps, i = .tune ds dr size reps) : t.Fresh := by
  rcases h with ⟨f, rfl⟩ | h
  · exact absurd h0 f.code_ne_zero
  · cases h with
    | created _ hP => exact ⟨rfl, hP, rfl⟩
    | restarted hc => exact ⟨hc, (hs.1 hc).1, rfl⟩
    | tuned ds dr size reps hc _ => exact ⟨hc, (hs.1 hc).1, rfl⟩
    | digested _ => simp [Instr.needsEngine] at hi
    | consumed k hform _ _ =>
      simp only [consumeForms, List.mem_cons, List.not_mem_nil, or_false] at hform
      rcases hform with rfl | rfl | rfl | rfl | rfl | rfl <;> simp [Instr.needsEngine] at hi

theorem State.Fresh.exec_digest {s : State} (hs : s.Fresh) :
    exec .digest s = .next (s.respond (serialDigest s.profile [])) := by
  obtain ⟨hc, hP, hreg⟩ := hs
  rw [exec_digest_of_configured hc, ← digestOf_foldl_byteStep hP, hreg]
  rfl

/-- No preset's digest is reversed, its flags being equal (R116). -/
theorem digestOf_initReg_presetProfile (p : Preset) :
    digestOf (presetProfile p) (initReg (presetProfile p)) = (presetProfile p).init ^^^ (presetProfile p).xorout := by
  rw [digestOf_of_flags_eq (by cases p <;> rfl), initReg_presetProfile]

theorem exec_digest_create_presetProfile (s : State) (p : Preset) :
    exec .digest (s.create (presetProfile p)) =
      .next ((s.create (presetProfile p)).respond ((presetProfile p).init ^^^ (presetProfile p).xorout)) := by
  rw [exec_digest_of_configured rfl, ← digestOf_initReg_presetProfile]
  rfl

/-- Settles O55: a fresh engine's digest is the reference's of no bytes, and for the presets that is `init` XOR `xorout`. -/
theorem digestOfTheEmptyMessage : Obligations.DigestOfTheEmptyMessage := by
  refine ⟨fun i s t hs h h0 hi => ⟨_, ((exec_next h).fresh hs h0 hi).exec_digest, rfl⟩, fun s p hp => ?_⟩
  have hpreset (q : Preset) := makeEngine_of_legal (presetProfile_legal q) s
  simp only [List.mem_cons, List.not_mem_nil, or_false] at hp
  rcases hp with rfl | rfl | rfl | rfl | rfl
  · exact ⟨_, _, hpreset .crc16, exec_digest_create_presetProfile s _, rfl⟩
  · exact ⟨_, _, hpreset .crc16Ccitt, exec_digest_create_presetProfile s _, rfl⟩
  · exact ⟨_, _, hpreset .crc32, exec_digest_create_presetProfile s _, rfl⟩
  · exact ⟨_, _, hpreset .crc64, exec_digest_create_presetProfile s _, rfl⟩
  · exact ⟨_, _, hpreset .crc64Iso, exec_digest_create_presetProfile s _, rfl⟩

/-! ### Messages in memory -/

/-- Every kernel over a span from the initial register gives the reference's digest of its bytes. -/
theorem digestOf_runKernel {P : Profile} (hP : P.Legal) (k : Kernel) (m : Memory) (addr len : Nat) :
    digestOf P (runKernel k P (tableOf P) m (initReg P) addr len) = serialDigest P (m.span addr len) := by
  have ⟨_, _, hinit, _⟩ := hP
  rw [runKernel_eq_byteKernel hP (initReg_lt hinit), byteKernel_eq_foldl, digestOf_foldl_byteStep hP]

/-- The message with each of its bytes reversed, from a memory that holds it. -/
theorem Memory.span_eq_map_rev8 {m m' : Memory} : ∀ {len addr addr' : Nat},
    (∀ i, i < len → m'.read (addr' + i) = rev8 (m.read (addr + i))) → m'.span addr' len = (m.span addr len).map rev8
  | 0, _, _, _ => rfl
  | len + 1, addr, addr', h => by
    have hrest := Memory.span_eq_map_rev8 (len := len) (addr := addr + 1) (addr' := addr' + 1) fun i hi => by
      simpa [Nat.add_comm, Nat.add_left_comm] using h (i + 1) (by omega)
    have hfirst : m'.read addr' = rev8 (m.read addr) := h 0 (by omega)
    rw [Memory.span, Memory.span, List.map_cons, hrest, hfirst]

/-! ### Two profiles of one polynomial, of which the first alone reflects its input -/

section
variable {P Q : Profile} (hw : Q.width = P.width) (hpoly : Q.poly = P.poly) (hP : P.refin = true) (hQ : Q.refin = false)
include hw hpoly hP hQ

/-- The reversal of a byte can be left to the message. -/
theorem serialByte_eq_serialByte_rev8 (r : Word) (v : Byte) : serialByte P r v = serialByte Q r (rev8 v) := by
  have hstep : bitStep P = bitStep Q := by
    funext r
    simp only [bitStep, hw, hpoly]
  simp [serialByte, bitSteps_eq_iterate, hstep, topByte, hw, hP, hQ]

theorem foldl_serialByte_eq_map_rev8 (message : List Byte) (r : Word) :
    message.foldl (serialByte P) r = (message.map rev8).foldl (serialByte Q) r := by
  induction message generalizing r with
  | nil => rfl
  | cons v vs ih => rw [List.map_cons, List.foldl_cons, List.foldl_cons, serialByte_eq_serialByte_rev8 hw hpoly hP hQ, ih]

end

/-- Settles O56: the two references run alike over their messages, and only the first reverses its register at the end. -/
theorem reflectedEnginesMirror : Obligations.ReflectedEnginesMirror := by
  intro P Q m m' k k' addr addr' len hP hin hout hxor hQ hbytes
  have hQlegal : Q.Legal := by rw [hQ]; exact hP
  have hw : Q.width = P.width := by rw [hQ]
  have hpoly : Q.poly = P.poly := by rw [hQ]
  have hinit : Q.init = P.init := by rw [hQ]
  have hinQ : Q.refin = false := by rw [hQ]
  have houtQ : Q.refout = false := by rw [hQ]
  have hxorQ : Q.xorout = 0 := by rw [hQ]; exact hxor
  rw [digestOf_runKernel hP, digestOf_runKernel hQlegal, Memory.span_eq_map_rev8 hbytes]
  simp [serialDigest, foldl_serialByte_eq_map_rev8 hw hpoly hin hinQ, hinit, hout, houtQ, hxor, hxorQ]

end Sys2Proof.Machine
end

section
/-! PROOFS. The kernels (R132, R133, R138, R142, R143): O22, O50, O51. -/

namespace Sys2Proof.Machine

/-- Settles O22: row 0 holds the entries R92 computes, and each of its operations is linear. -/
theorem rowZeroIsLinear : Obligations.RowZeroIsLinear := by
  intro P a b _
  rw [tableGet_rowZero, tableGet_rowZero, tableGet_rowZero, rowZeroEntry_xor]

/-- Settles O51: the word kernels are the byte kernel block by block. -/
theorem kernelsAreEquivalent : Obligations.KernelsAreEquivalent := by
  rintro k P _ m reg addr len hP rfl hr
  exact runKernel_eq_byteKernel hP hr k m addr len

/-! ### One block by positions -/

/-- The XOR of table entries with the row counted from the position, on top of a carry. -/
theorem xor_tableXor_map_range (T : Table) : ∀ (k : Nat) (f : Nat → Byte) (c : Word),
    c ^^^ tableXor T ((List.range k).map f) =
      ((List.range k).map fun p => tableGet T (k - 1 - p) (f p)).foldl (· ^^^ ·) c
  | 0, _, _ => BitVec.xor_zero
  | k + 1, f, c => by
    have hrow (p : Nat) : k - 1 - p = k - (p + 1) := by omega
    have hrest := xor_tableXor_map_range T k (f ∘ Nat.succ) (c ^^^ tableGet T k (f 0))
    simpa [List.range_succ_eq_map, tableXor, Function.comp_def, hrow, BitVec.xor_assoc] using hrest

/-- The absorbed bytes of a span by positions: byte `p` meets the byte that leaves the register at step `p`. -/
theorem absorbBytes_span (P : Profile) (m : Memory) : ∀ (k : Nat) (r : Word) (ptr : Nat),
    absorbBytes P r (m.span ptr k) =
      (List.range k).map fun p => m.read (ptr + p) ^^^ leadByte P ((dropByte P)^[p] r)
  | 0, _, _ => rfl
  | k + 1, r, ptr => by
    have haddr (p : Nat) : ptr + 1 + p = ptr + (p + 1) := by omega
    simp [Memory.span, absorbBytes, absorbBytes_span P m k, List.range_succ_eq_map, haddr]

theorem lowByte_ushiftRight (r : Word) (s : Nat) : lowByte (r >>> s) = r.extractLsb' s 8 := by
  refine BitVec.eq_of_getLsbD_eq fun i hi => ?_
  simp [lowByte, hi]

/-- Shifted up by `k` bytes, a W-bit register has at its top the byte that stood `k` below. -/
theorem lowByte_shlW_ushiftRight {m k : Nat} (hk : k < m) (h8 : m ≤ 8) (r : Word) :
    lowByte (shlW (8 * m) r (8 * k) >>> (8 * m - 8)) = r.extractLsb' (8 * (m - 1 - k)) 8 := by
  refine BitVec.eq_of_getLsbD_eq fun i hi => ?_
  have hwidth : 8 * m - 8 + i < 8 * m := by omega
  have h64 : 8 * m - 8 + i < 64 := by omega
  have hshift : ¬ 8 * m - 8 + i < 8 * k := by omega
  have hidx : 8 * m - 8 + i - 8 * k = 8 * (m - 1 - k) + i := by omega
  rw [lowByte, BitVec.getLsbD_setWidth, BitVec.getLsbD_ushiftRight, getLsbD_shlW, hidx]
  simp [hi, hwidth, h64, hshift]

/-- The byte that leaves the register at step `p` is register byte `p` of R132, and 0 once all W bits have left. -/
theorem leadByte_dropByte_iterate_eq_extractLsb' {P : Profile} {r : Word} (hP : P.Legal) (hr : r.toNat < 2 ^ P.width)
    (p : Nat) :
    leadByte P ((dropByte P)^[p] r) =
      if p < P.width / 8 then
        (if P.refin then r.extractLsb' (8 * p) 8 else r.extractLsb' (8 * (P.width / 8 - 1 - p)) 8)
      else 0 := by
  obtain ⟨m, hm, _, h8⟩ := hP.width_eq
  have hdiv : P.width / 8 = m := by omega
  rw [hdiv]
  by_cases hp : p < m
  · rw [if_pos hp, dropByte_iterate hr, leadByte]
    split
    · exact lowByte_ushiftRight r (8 * p)
    · rw [hm]
      exact lowByte_shlW_ushiftRight hp h8 r
  · rw [if_neg hp, dropByte_iterate_eq_zero hr (by omega), leadByte_zero]
    rfl

/-- At width 64 the truncating shift of the carry is the plain one (R138). -/
theorem carry_eq (P : Profile) (n : Nat) (r : Word) :
    carry P n r = if P.width = 64 ∧ n = 1 then (if P.refin then r >>> 32 else r <<< 32) else 0 := by
  simp [carry, shlW, truncW]

/-- Settles O50: the block's words are its bytes, absorbed and looked up position by position. -/
theorem blockIsTheXorOfItsTableEntries : Obligations.BlockIsTheXorOfItsTableEntries := by
  intro P T m n reg ptr hP hr _
  rw [foldBlock, foldWords_eq_tableXor, ← absorbBytes_flatMap_bytesOfWord hP hr, flatMap_bytesOfWord_blockWords,
    absorbBytes_span, xor_tableXor_map_range, carry_eq]
  simp only [leadByte_dropByte_iterate_eq_extractLsb' hP hr]

end Sys2Proof.Machine
end

section
/-! PROOFS. TUNE (R150 to R153): what it writes (O25, O26), what it leaves (O41), and that no digest depends on it (O57). -/

namespace Sys2Proof.Machine

/-! ### What TUNE answers -/

/-- The block after a TUNE that drew `k`: the register restarted, the draw counted, the response (0, 0). -/
def State.retune (s : State) (k : Kernel) : State :=
  { s with active := k, reg := initReg s.profile, draws := s.draws + 1 }.respond 0

theorem tuneSize_toNat (ds : Bool) (size : Word) : (tuneSize ds size).toNat = if ds then 8191 else size.toNat := by
  cases ds <;> rfl

/-- TUNE on a configured block, within `TUNE_BUF_MAX` (R150). -/
theorem exec_tune_of_fits {s : State} {ds : Bool} {size : Word} (hc : s.configured = true)
    (hb : (if ds then 8191 else size.toNat) ≤ s.tuneBufMax.toNat) (dr : Bool) (reps : Word) :
    exec (.tune ds dr size reps) s =
      .next (s.retune (Config.tuneDraw s.draws (tuneSize ds size) (tuneReps dr reps))) := by
  have hfits : ¬ s.tuneBufMax < tuneSize ds size := by
    rwa [BitVec.lt_def, tuneSize_toNat, Nat.not_lt]
  exact (if_neg (not_not.2 hc)).trans (if_neg hfits)

/-- TUNE reads its operands through the effective size and count alone (R151). -/
theorem exec_tune_congr {ds ds' dr dr' : Bool} {size size' reps reps' : Word}
    (hsize : tuneSize ds size = tuneSize ds' size') (hreps : tuneReps dr reps = tuneReps dr' reps') (s : State) :
    exec (.tune ds dr size reps) s = exec (.tune ds' dr' size' reps') s := by
  simp only [exec, execTune, hsize, hreps]

/-- TUNE faults, or draws some kernel and restarts. -/
theorem Ends.of_tune {ds dr : Bool} {size reps : Word} {s t : State} (h : Ends (.tune ds dr size reps) s t) :
    (∃ f, t = s.raise f) ∨ ∃ k, t = s.retune k := by
  refine h.imp_right fun h => ?_
  cases h with
  | created he _ => cases he
  | consumed k hi _ _ => simp [consumeForms] at hi
  | tuned _ _ _ _ _ _ => exact ⟨_, rfl⟩

/-- Settles O25: the kernel is the one drawn. -/
theorem tuneDrawsAKernelAndRestarts : Obligations.TuneDrawsAKernelAndRestarts :=
  fun _ _ dr _ reps hc hb => ⟨_, exec_tune_of_fits hc hb dr reps⟩

/-- Settles O26: the two forms have the same effective operands. -/
theorem tuneDefaultsReplaceOmittedOperands : Obligations.TuneDefaultsReplaceOmittedOperands :=
  fun s _ _ _ _ => ⟨exec_tune_congr rfl rfl s, exec_tune_congr rfl rfl s⟩

/-- Settles O41: a fault writes `RESP` alone, and a draw no more than `ACTIVE`, `REG`, `RESP` and its counter. -/
theorem tuneFrame : Obligations.TuneFrame := by
  intro s t ds dr size reps h
  rcases (exec_next h).of_tune with ⟨f, rfl⟩ | ⟨k, rfl⟩ <;> exact ⟨rfl, rfl, rfl, rfl, fun _ => rfl, rfl, rfl⟩

/-! ### TUNE and the digest -/

/-- The MAKE of a legal profile creates its engine: the width fits its byte, the kernel has its number (R90). -/
theorem exec_makeOf {P : Profile} (hP : P.Legal) (s : State) : exec (makeOf P) s = .next (s.create P) := by
  have hwidth : (BitVec.ofNat 8 P.width).toNat = P.width :=
    Nat.mod_eq_of_lt (hP.width_le.2.trans_lt (by decide))
  rw [makeOf, exec_make_of_kernel (kernelOfNumber_kernelNumber _), hwidth, makeEngine_of_legal hP]

/-- Settles O57: TUNE and MAKE both leave an engine of the profile with the initial register, and the digest of a message fed
to such an engine is the bit-serial reference's, whichever kernel is active. -/
theorem tuneChangesNoDigest : Obligations.TuneChangesNoDigest := by
  intro s ds dr size reps addr len hs hc hb hr i hi
  have htune := exec_tune_of_fits hc hb dr reps
  have hmake := exec_makeOf (hs.1 hc).1 s
  obtain ⟨t2, t3, ht2, ht3, htresp⟩ :=
    digestEqualsTheBitSerialReference _ addr len ((exec_next htune).inv hs) hc rfl hr i hi
  obtain ⟨u2, u3, hu2, hu3, huresp⟩ :=
    digestEqualsTheBitSerialReference _ addr len ((exec_next hmake).inv hs) rfl rfl hr i hi
  exact ⟨_, t2, t3, _, u2, u3, htune, ht2, ht3, hmake, hu2, hu3, htresp.trans huresp.symm, by rw [htresp]⟩

end Sys2Proof.Machine
end

section
/-! PROOFS. Faults (R160 to R168): the first fault in order is the one reported (O34), the conditions of each fault (O15,
O16, O31, O32, O33), and the step at an illegal header (O10). -/

namespace Sys2Proof.Machine

/-! ### What a command reports -/

/-- The outcome is the response to the fault alone; with no fault, a command that ends has ended normally. -/
def Reports (s : State) : Option CmdFault → Host.Outcome State Fault Refusal → Prop
  | some f, o => o = .next (s.raise f)
  | none, o => ∀ t, o = .next t → t.resp.status = 0

/-- A command that ends with status 0 reports no fault. -/
theorem reports_none {s t : State} {o : Host.Outcome State Fault Refusal} (ho : o = .next t) (h0 : t.resp.status = 0) :
    Reports s none o := by
  intro u hu
  cases ho.symm.trans hu
  exact h0

/-- The engine is the first of the checks (R164, R168). -/
theorem reports_withEngine {s : State} {own : Option CmdFault} {o : Host.Outcome State Fault Refusal}
    (hno : s.configured = false → o = .next (s.raise .notConfigured)) (hown : s.configured = true → Reports s own o) :
    Reports s (withEngine s own) o := by
  unfold withEngine
  split
  case isTrue hc => exact hown hc
  case isFalse hc => exact hno (Bool.eq_false_of_not_eq_true hc)

/-! ### MAKE -/

theorem kernelOfNumber_of_four_lt {k : BitVec 3} (hk : 4 < k) : kernelOfNumber k = none := by
  rcases four_lt_iff.1 hk with rfl | rfl | rfl <;> rfl

/-- MAKE with a kernel number that names no kernel (log 13). -/
theorem exec_make_of_no_kernel {k : BitVec 3} (hk : 4 < k) (wd : BitVec 8) (ri ro : Bool) (poly ini xorout : Word)
    (s : State) : exec (.make wd k ri ro poly ini xorout) s = .next (s.raise .illegalCommand) := by
  simp only [exec, execMake, kernelOfNumber_of_four_lt hk]

theorem makeEngine_of_other_width {P : Profile} (hw : ¬ (P.width = 16 ∨ P.width = 32 ∨ P.width = 64)) (s : State) :
    makeEngine P s = .next (s.raise .unsupportedWidth) :=
  if_pos (mt isWidth_iff.1 hw)

theorem makeEngine_of_large_operand {P : Profile} (hw : P.width = 16 ∨ P.width = 32 ∨ P.width = 64)
    (ho : 2 ^ P.width ≤ P.poly.toNat ∨ 2 ^ P.width ≤ P.init.toNat ∨ 2 ^ P.width ≤ P.xorout.toNat) (s : State) :
    makeEngine P s = .next (s.raise .invalidProfile) := by
  have hfits : ¬ (fitsWidth P.width P.poly ∧ fitsWidth P.width P.init ∧ fitsWidth P.width P.xorout) := by
    simp only [fitsWidth_iff]
    omega
  rw [makeEngine, if_neg (not_not.2 (isWidth_iff.2 hw)), if_pos hfits]

/-- MAKE: kernel number, width, operands, in this order (R91, R168). -/
theorem exec_make_reports (wd : BitVec 8) (k : BitVec 3) (ri ro : Bool) (poly ini xorout : Word) (s : State) :
    Reports s (firstFault (.make wd k ri ro poly ini xorout) s) (exec (.make wd k ri ro poly ini xorout) s) := by
  rw [firstFault]
  by_cases hk : 4 < k
  · rw [if_pos hk]
    exact exec_make_of_no_kernel hk wd ri ro poly ini xorout s
  obtain ⟨kern, hkern⟩ := kernelOfNumber_of_le_four (BitVec.not_lt.1 hk)
  rw [if_neg hk, exec_make_of_kernel hkern]
  by_cases hw : wd.toNat = 16 ∨ wd.toNat = 32 ∨ wd.toNat = 64
  · rw [if_neg (not_not.2 hw)]
    split
    case isTrue ho => exact makeEngine_of_large_operand hw ho s
    case isFalse ho =>
      simp only [not_or, Nat.not_le] at ho
      exact reports_none (makeEngine_of_legal ⟨hw, ho⟩ s) rfl
  · rw [if_pos hw]
    exact makeEngine_of_other_width hw s

/-- A preset creates its engine, in every state. -/
theorem preset_reports (p : Preset) (s : State) : Reports s none (makeEngine (presetProfile p) s) :=
  reports_none (makeEngine_of_legal (presetProfile_legal p) s) rfl

/-! ### Spans and buffers -/

/-- The consume wrapper: no engine, then a span past the top. A span that is not admitted is a stop and no response. -/
theorem consumeWith_reports (k : Kernel) (addr len : Word) (s : State) :
    Reports s (withEngine s (spanFault addr len)) (consumeWith k addr len s) := by
  refine reports_withEngine consumeWith_of_not_configured fun hc => ?_
  unfold spanFault
  split
  case isTrue hr => exact consumeWith_of_past_top hc hr
  case isFalse hr =>
    cases ha : memAdmit s.unadmitted addr len with
    | true => exact reports_none (consumeWith_of_reads hc ⟨Nat.not_lt.1 hr, ha⟩) rfl
    | false =>
      rw [consumeWith_of_unadmitted hc (Nat.not_lt.1 hr) ha]
      exact nofun

/-- TUNE on a configured block, above `TUNE_BUF_MAX` (R167). -/
theorem exec_tune_of_too_large {s : State} {ds : Bool} {size : Word} (hc : s.configured = true)
    (hb : s.tuneBufMax.toNat < if ds then 8191 else size.toNat) (dr : Bool) (reps : Word) :
    exec (.tune ds dr size reps) s = .next (s.raise .tuneRange) := by
  have hlarge : s.tuneBufMax < tuneSize ds size := by
    rwa [BitVec.lt_def, tuneSize_toNat]
  exact (if_neg (not_not.2 hc)).trans (if_pos hlarge)

theorem exec_tune_reports (ds dr : Bool) (size reps : Word) (s : State) :
    Reports s (firstFault (.tune ds dr size reps) s) (exec (.tune ds dr size reps) s) := by
  refine reports_withEngine (exec_of_not_configured rfl) fun hc => ?_
  by_cases hb : s.tuneBufMax.toNat < if ds then 8191 else size.toNat
  · rw [if_pos hb]
    exact exec_tune_of_too_large hc hb dr reps
  · rw [if_neg hb]
    exact reports_none (exec_tune_of_fits hc (Nat.not_lt.1 hb) dr reps) rfl

/-! ### Every command -/

/-- Each command checks for its faults in the order of R168. -/
theorem exec_reports (i : Instr) (s : State) : Reports s (firstFault i s) (exec i s) := by
  cases i with
  | make wd k ri ro poly ini xorout => exact exec_make_reports wd k ri ro poly ini xorout s
  | reset =>
    exact reports_withEngine (exec_of_not_configured rfl) fun hc => reports_none (exec_reset_of_configured hc) rfl
  | consume addr len => exact consumeWith_reports s.active addr len s
  | consumekByte addr len => exact consumeWith_reports .byte addr len s
  | consumek1w addr len => exact consumeWith_reports .w1 addr len s
  | consumek2w addr len => exact consumeWith_reports .w2 addr len s
  | consumek4w addr len => exact consumeWith_reports .w4 addr len s
  | consumek8w addr len => exact consumeWith_reports .w8 addr len s
  | digest =>
    exact reports_withEngine (exec_of_not_configured rfl) fun hc => reports_none (exec_digest_of_configured hc) rfl
  | tune ds dr size reps => exact exec_tune_reports ds dr size reps s
  | crc16 => exact preset_reports .crc16 s
  | crc16Ccitt => exact preset_reports .crc16Ccitt s
  | crc32 => exact preset_reports .crc32 s
  | crc64 => exact preset_reports .crc64 s
  | crc64Iso => exact preset_reports .crc64Iso s

theorem exec_of_firstFault {i : Instr} {s : State} {f : CmdFault} (hf : firstFault i s = some f) :
    exec i s = .next (s.raise f) := by
  have h := exec_reports i s
  rwa [hf] at h

theorem firstFault_of_status_ne_zero {i : Instr} {s t : State} (h : exec i s = .next t) (h0 : t.resp.status ≠ 0) :
    ∃ f, firstFault i s = some f ∧ t = s.raise f := by
  cases hf : firstFault i s with
  | none =>
    have hnone := exec_reports i s
    rw [hf] at hnone
    exact absurd (hnone t h) h0
  | some f =>
    cases (exec_of_firstFault hf).symm.trans h
    exact ⟨f, rfl, rfl⟩

/-- Settles O34: the first fault is raised, and where there is none the status is 0. -/
theorem firstFaultInOrderIsReported : Obligations.FirstFaultInOrderIsReported :=
  fun _ _ => ⟨fun _ => exec_of_firstFault, fun _ => firstFault_of_status_ne_zero⟩

/-! ### Each fault's condition -/

/-- The status is the code of the first fault and no other fault's. -/
theorem status_ne_code {i : Instr} {s t : State} {f : CmdFault} (hf : firstFault i s ≠ some f)
    (h : exec i s = .next t) : t.resp.status ≠ f.code := by
  intro hcode
  obtain ⟨g, hg, rfl⟩ := firstFault_of_status_ne_zero h (hcode ▸ f.code_ne_zero)
  exact hf (hg.trans (congrArg some (CmdFault.code_injective hcode)))

/-- Settles O15: the width is the first check of a MAKE with a kernel, and a preset's profile is legal. -/
theorem makeFaultsOnAnUnsupportedWidth : Obligations.MakeFaultsOnAnUnsupportedWidth := by
  refine ⟨fun s wd k ri ro poly ini xorout hk h16 h32 h64 => ?_, fun s t i hi h => ?_⟩
  · obtain ⟨kern, hkern⟩ := kernelOfNumber_of_le_four hk
    rw [exec_make_of_kernel hkern]
    exact makeEngine_of_other_width (by simp [h16, h32, h64]) s
  · obtain ⟨p, hp⟩ := exec_preset hi s
    rw [preset_resp (hp.symm.trans h)]
    decide

/-- No word is 2^64 or more. -/
theorem firstFault_make_width_64 (k : BitVec 3) (ri ro : Bool) (poly ini xorout : Word) (s : State) :
    firstFault (.make 64 k ri ro poly ini xorout) s ≠ some .invalidProfile := by
  have hwidth : (64 : BitVec 8).toNat = 64 := rfl
  have hfits : ¬ (2 ^ 64 ≤ poly.toNat ∨ 2 ^ 64 ≤ ini.toNat ∨ 2 ^ 64 ≤ xorout.toNat) := by omega
  rw [firstFault, hwidth, if_neg hfits]
  split_ifs <;> simp

/-- Settles O16: the operands are the second check, and at width 64 each of them fits. -/
theorem makeFaultsOnAnInvalidProfile : Obligations.MakeFaultsOnAnInvalidProfile := by
  refine ⟨fun s wd k ri ro poly ini xorout hk hw ho => ?_, fun s t k ri ro poly ini xorout => ?_⟩
  · obtain ⟨kern, hkern⟩ := kernelOfNumber_of_le_four hk
    rw [exec_make_of_kernel hkern]
    exact makeEngine_of_large_operand (hw.imp_right .inl) ho s
  · exact status_ne_code (firstFault_make_width_64 k ri ro poly ini xorout s)

/-- The engine is no condition of MAKE and the presets. -/
theorem firstFault_ne_notConfigured {i : Instr} (hi : i.needsEngine = false) (s : State) :
    firstFault i s ≠ some .notConfigured := by
  cases i with
  | make wd k ri ro poly ini xorout =>
    rw [firstFault]
    split_ifs <;> simp
  | crc16 => nofun
  | crc16Ccitt => nofun
  | crc32 => nofun
  | crc64 => nofun
  | crc64Iso => nofun
  | _ => cases hi

/-- Settles O31: the nine commands are the ones that need an engine. -/
theorem commandsWithoutAnEngineFault : Obligations.CommandsWithoutAnEngineFault := by
  refine ⟨fun s addr len size reps ds dr hc i hi => ?_,
    fun s t i hi => status_ne_code (firstFault_ne_notConfigured hi s)⟩
  have hneeds : ∀ j ∈ .reset :: .digest :: .tune ds dr size reps :: consumeForms addr len, j.needsEngine = true := by
    simp [consumeForms, Instr.needsEngine]
  exact exec_of_not_configured (hneeds i hi) hc

theorem firstFault_consumeForms {i : Instr} {addr len : Word} (hi : i ∈ consumeForms addr len) (s : State) :
    firstFault i s = withEngine s (spanFault addr len) := by
  simp only [consumeForms, List.mem_cons, List.not_mem_nil, or_false] at hi
  rcases hi with rfl | rfl | rfl | rfl | rfl | rfl <;> rfl

/-- Where a command's own check finds nothing, the engine is the one thing that can be missing. -/
theorem withEngine_none_ne {f : CmdFault} (hf : f ≠ .notConfigured) (s : State) : withEngine s none ≠ some f := by
  unfold withEngine
  split
  · nofun
  · exact fun h => hf (Option.some.inj h).symm

/-- Settles O32: the span is the consume wrapper's second check, and an empty span passes it. -/
theorem spansPastTheTopFault : Obligations.SpansPastTheTopFault := by
  refine ⟨fun s addr len hc hr i hi => ?_, fun s t addr i hi => status_ne_code (f := .spanRange) ?_⟩
  · obtain ⟨k, hk⟩ := exec_consumeForms hi s
    exact hk.trans (consumeWith_of_past_top hc hr)
  · rw [firstFault_consumeForms hi, spanFault, if_neg (Nat.not_lt.2 (empty_span_in_range addr))]
    exact withEngine_none_ne (by decide) s

/-- Settles O33: no size is above the default limit. -/
theorem oversizedTuneBuffersFault : Obligations.OversizedTuneBuffersFault := by
  refine ⟨fun s ds dr size reps hc hb => exec_tune_of_too_large hc hb dr reps, fun s t ds dr size reps hmax => ?_⟩
  have hsize : ¬ s.tuneBufMax.toNat < if ds then 8191 else size.toNat := by
    split <;> omega
  refine status_ne_code (f := .tuneRange) ?_
  rw [firstFault, if_neg hsize]
  exact withEngine_none_ne (by decide) s

/-! ### The step at an illegal header -/

/-- Settles O10: the decoder hands the step the rest of the stream after the descriptor's words. -/
theorem illegalHeadersAreTakenAndFault : Obligations.IllegalHeadersAreTakenAndFault := by
  intro s h ops why hp hi hn
  have hfetch : fetch s = .illegal why (ops.drop (descriptorLength (opOf h) - 1)) := by
    rw [fetch, hp, decode_of_illegal hn hi]
  rw [step, hfetch]
  rfl

end Sys2Proof.Machine
end

section
/-! PROOFS. Hardware reset (R190, R30): O12. -/

namespace Sys2Proof.Machine

/-- An empty port is a port that ends inside a descriptor (R69). -/
theorem step_of_port_nil {s : State} (hp : s.port = []) : step s = .next s :=
  step_of_waiting (hp ▸ decoderTakesTheDescriptorOfItsOpcode.1)

/-- Settles O12: the registers by the rules of hardware reset, the step because the port it leaves is empty. -/
theorem hardwareResetLeavesTheBlockWaiting : Obligations.HardwareResetLeavesTheBlockWaiting := by
  refine ⟨fun s => ?_, rfl, rfl, rfl⟩
  exact ⟨s.hardwareReset_configured, s.hardwareReset_resp, s.hardwareReset_port, s.hardwareReset_mem,
    step_of_port_nil s.hardwareReset_port⟩

end Sys2Proof.Machine
end
